-- ==== Sys2Proof/Word.lean ====
section
/-! DEFINITION. The words of the controller (00_scope.md R6, R7, R10): packets, command words, bytes, line
levels, and the names of the four lines and of the two array spaces. -/

namespace Sys2Proof

/-- The level of a line: `true` is 1 (high), `false` is 0 (low) (R25). The spec's `1 - level` is `!level`. -/
abbrev Level := Bool

/-- One 8-bit transfer on the link (R53). -/
abbrev Byte := BitVec 8

/-- A 32-bit wire packet, bit 31 first on the wire (R10, R81, R82). -/
abbrev Packet := BitVec 32

/-- A 64-bit command word, opcode in bits 63:60 (R88). -/
abbrev CommandWord := BitVec 64

/-- The four physical lines (R22, R67), in the source's order clock, enable, latch, data. -/
inductive Line where
  | clk | en | lat | dat
  deriving DecidableEq, Repr

/-- The two array spaces (R50). A Send and a setter are each of one kind, the kind of one space. -/
inductive Space where
  | dcmem | pwmmem
  deriving DecidableEq, Repr

end Sys2Proof
end

