-- ==== Sys2Proof/Syntax.lean ====
section
/-! DEFINITION. The instructions: one constructor per row of spec/opcode_table.json, the nine host commands in
abstract form (30_encoding.md R93, operand widths R7, R91) and the two wire packets (R81, R82, R95). -/

namespace Sys2Proof

inductive Instr where
  /-- `Nop()` (R182). -/
  | nop
  /-- `Configure(ICs, clk, en, lat, dat)` (R181). -/
  | configure (ics clk en lat dat : BitVec 8)
  /-- `SetDotCorrectionForIC(icNumber, v0, v1, v2)` (R110). -/
  | setDotCorrectionForIC (ic : BitVec 8) (v0 v1 v2 : BitVec 16)
  /-- `SetDotCorrectionForAllICs(v0, v1, v2)` (R111). -/
  | setDotCorrectionForAllICs (v0 v1 v2 : BitVec 16)
  /-- `SetIntensityForIC(icNumber, v0, v1, v2)` (R112). -/
  | setIntensityForIC (ic : BitVec 8) (v0 v1 v2 : BitVec 16)
  /-- `SetIntensityForAllICs(v0, v1, v2)` (R113). -/
  | setIntensityForAllICs (v0 v1 v2 : BitVec 16)
  /-- `SendDotCorrection()` (R150). -/
  | sendDotCorrection
  /-- `SendIntensity()` (R151). -/
  | sendIntensity
  /-- `SetEnabled(enabled)` (R180). -/
  | setEnabled (enabled : Bool)
  /-- The dot-correction wire packet `W-DC` with channel values `c0`, `c1`, `c2` (R81). -/
  | wireDC (c0 c1 c2 : BitVec 7)
  /-- The intensity wire packet `W-PWM` with channel values `c0`, `c1`, `c2` (R82). -/
  | wirePWM (c0 c1 c2 : BitVec 10)
  deriving DecidableEq, Repr

end Sys2Proof
end

