-- ==== Sys2Proof/WellFormed.lean ====
section
/-! DEFINITION. Well-formed instructions. The operand widths are in the types; the one further condition the
spec puts on operands is that Configure's four line identifiers be pairwise distinct (10_state.md R22). -/

namespace Sys2Proof

/-- The four line identifiers are pairwise distinct (R22, D20). -/
def idsDistinct (clk en lat dat : BitVec 8) : Bool :=
  clk != en && clk != lat && clk != dat && en != lat && en != dat && lat != dat

/-- The operands meet every condition the spec puts on them. -/
def Instr.wellFormed : Instr → Bool
  | .nop => true
  | .configure _ clk en lat dat => idsDistinct clk en lat dat
  | .setDotCorrectionForIC _ _ _ _ => true
  | .setDotCorrectionForAllICs _ _ _ => true
  | .setIntensityForIC _ _ _ _ => true
  | .setIntensityForAllICs _ _ _ => true
  | .sendDotCorrection => true
  | .sendIntensity => true
  | .setEnabled _ => true
  | .wireDC _ _ _ => true
  | .wirePWM _ _ _ => true

end Sys2Proof
end

