-- ==== Sys2Proof/Decode.lean ====
section
/-! DEFINITION. Decoding and encoding: 64-bit command words (30_encoding.md R88 to R92) and 32-bit wire packets
(R81, R82, R95). -/

namespace Sys2Proof

/-- What a decoder is given: a command word from the host, or a packet from the link (R80). -/
inductive Code where
  | command (w : CommandWord)
  | packet (p : Packet)
  deriving DecidableEq, Repr

/-- What a decoder answers: an instruction; a reserved opcode, which the block ignores (R90, R92); or a word
on the link that is no packet of the block (R83, R84), for which the spec gives no meaning (U5). -/
inductive Decoded where
  | instr (i : Instr)
  | reserved (op : BitVec 4)
  | stray (p : Packet)
  deriving DecidableEq, Repr

/-- The opcode field of a command word, bits 63:60 (R88). -/
def opcodeField (w : CommandWord) : BitVec 4 := w.extractLsb' 60 4

/-- Field `v0` of formats `S` and `A`, bits 15:0 (R88). -/
def v0Field (w : CommandWord) : BitVec 16 := w.extractLsb' 0 16

/-- Field `v1` of formats `S` and `A`, bits 31:16 (R88). -/
def v1Field (w : CommandWord) : BitVec 16 := w.extractLsb' 16 16

/-- Field `v2` of formats `S` and `A`, bits 47:32 (R88). -/
def v2Field (w : CommandWord) : BitVec 16 := w.extractLsb' 32 16

/-- Field `ic` of format `S`, bits 55:48 (R88). -/
def icField (w : CommandWord) : BitVec 8 := w.extractLsb' 48 8

/-- Field `ics` of format `C`, bits 39:32 (R88). -/
def icsField (w : CommandWord) : BitVec 8 := w.extractLsb' 32 8

/-- Field `clk` of format `C`, bits 31:24 (R88). -/
def clkField (w : CommandWord) : BitVec 8 := w.extractLsb' 24 8

/-- Field `enl` of format `C`, bits 23:16 (R88). -/
def enlField (w : CommandWord) : BitVec 8 := w.extractLsb' 16 8

/-- Field `lat` of format `C`, bits 15:8 (R88). -/
def latField (w : CommandWord) : BitVec 8 := w.extractLsb' 8 8

/-- Field `dat` of format `C`, bits 7:0 (R88). -/
def datField (w : CommandWord) : BitVec 8 := w.extractLsb' 0 8

/-- Field `en` of format `E`, bit 0: 1 is true (R88, R91). -/
def enField (w : CommandWord) : Bool := w.getLsbD 0

/-- A command word decodes by its opcode alone; bits outside the format's fields are ignored (R89, R90, R92). -/
def decodeCommand (w : CommandWord) : Decoded :=
  match (opcodeField w).toNat with
  | 0 => .instr .nop
  | 1 => .instr (.configure (icsField w) (clkField w) (enlField w) (latField w) (datField w))
  | 2 => .instr (.setDotCorrectionForIC (icField w) (v0Field w) (v1Field w) (v2Field w))
  | 3 => .instr (.setDotCorrectionForAllICs (v0Field w) (v1Field w) (v2Field w))
  | 4 => .instr (.setIntensityForIC (icField w) (v0Field w) (v1Field w) (v2Field w))
  | 5 => .instr (.setIntensityForAllICs (v0Field w) (v1Field w) (v2Field w))
  | 6 => .instr .sendDotCorrection
  | 7 => .instr .sendIntensity
  | 8 => .instr (.setEnabled (enField w))
  | _ => .reserved (opcodeField w)

/-- The constant bits of `W-DC` (R95). -/
def wireDCMask : Packet := 0xF80E0380#32

/-- The value of the constant bits of `W-DC` (R95). -/
def wireDCMatch : Packet := 0x40000000#32

/-- The constant bits of `W-PWM` (R95). -/
def wirePWMMask : Packet := 0xC0000000#32

/-- The value of the constant bits of `W-PWM` (R95). -/
def wirePWMMatch : Packet := 0x00000000#32

/-- A word on the link is a packet when its constant bits are those of R81 or R82; the block sends no other
(R83, R84). -/
def decodePacket (p : Packet) : Decoded :=
  if p &&& wireDCMask = wireDCMatch then
    .instr (.wireDC (p.extractLsb' 0 7) (p.extractLsb' 10 7) (p.extractLsb' 20 7))
  else if p &&& wirePWMMask = wirePWMMatch then
    .instr (.wirePWM (p.extractLsb' 0 10) (p.extractLsb' 10 10) (p.extractLsb' 20 10))
  else .stray p

/-- Decoding is total (R92). -/
def decode : Code → Decoded
  | .command w => decodeCommand w
  | .packet p => decodePacket p

/-- The word an instruction is written as, reserved bits 0 (R88, R89, R90 (b); packets R81, R82). -/
def encode : Instr → Code
  | .nop => .command (0x0#4 ++ 0#60)
  | .configure ics clk en lat dat => .command (0x1#4 ++ 0#20 ++ ics ++ clk ++ en ++ lat ++ dat)
  | .setDotCorrectionForIC ic v0 v1 v2 => .command (0x2#4 ++ 0#4 ++ ic ++ v2 ++ v1 ++ v0)
  | .setDotCorrectionForAllICs v0 v1 v2 => .command (0x3#4 ++ 0#12 ++ v2 ++ v1 ++ v0)
  | .setIntensityForIC ic v0 v1 v2 => .command (0x4#4 ++ 0#4 ++ ic ++ v2 ++ v1 ++ v0)
  | .setIntensityForAllICs v0 v1 v2 => .command (0x5#4 ++ 0#12 ++ v2 ++ v1 ++ v0)
  | .sendDotCorrection => .command (0x6#4 ++ 0#60)
  | .sendIntensity => .command (0x7#4 ++ 0#60)
  | .setEnabled enabled => .command (0x8#4 ++ 0#59 ++ BitVec.ofBool enabled)
  | .wireDC c0 c1 c2 => .packet (0b01#2 ++ 0#3 ++ c2 ++ 0#3 ++ c1 ++ 0#1 ++ 0#2 ++ c0)
  | .wirePWM c0 c1 c2 => .packet (0b00#2 ++ c2 ++ c1 ++ c0)

/-- The bits of a command word that its format names, by opcode: the others are reserved (R88, R90 (b)). -/
def namedBits (op : BitVec 4) : CommandWord :=
  match op.toNat with
  | 1 => 0xF00000FFFFFFFFFF#64
  | 2 => 0xF0FFFFFFFFFFFFFF#64
  | 3 => 0xF000FFFFFFFFFFFF#64
  | 4 => 0xF0FFFFFFFFFFFFFF#64
  | 5 => 0xF000FFFFFFFFFFFF#64
  | 8 => 0xF000000000000001#64
  | _ => 0xF000000000000000#64

/-- The word of an opcode-table row as the decoder gets it: the two 32-bit rows are wire packets, every other
row is a 64-bit command word whose bits above `nbits` are 0 (R95). -/
def tableCode (nbits w : Nat) : Code :=
  if nbits = 32 then .packet (BitVec.ofNat 32 w) else .command (BitVec.ofNat 64 (w % 2 ^ nbits))

/-- The instruction the decoder reads from an opcode-table row's word; none for a reserved opcode or a word
that is no packet. -/
def decodeTableWord (nbits w : Nat) : Option Instr :=
  match decode (tableCode nbits w) with
  | .instr i => some i
  | .reserved _ => none
  | .stray _ => none

end Sys2Proof
end

