-- ==== Sys2Proof/Config.lean ====
section
/-! DEFINITION. The parameters the source fixes (00_scope.md R6), the fixed rows of R7, and the free values:
constants without a body for what the spec leaves at "any value" (93_implementation_defined.md U5, U7). The
parameters R7 leaves OPEN are fields of `Machine.State.params`. -/

namespace Sys2Proof.Config

/-- `MAX_CHAIN`: greatest chain length and clamp target (R6). -/
def maxChain : Nat := 250

/-- `MIN_CHAIN`: least chain length (R6). -/
def minChain : Nat := 1

/-- `CH_PER_IC`: channels per IC (R6). -/
def chPerIC : Nat := 3

/-- `MAX_SLOTS`: greatest array length in use (R6). -/
def maxSlots : Nat := 750

/-- `WAIT_REQUEST_US`: argument of each wait of the latch pulse (R7, D12). -/
def waitRequestUs : Nat := 2

/-- `CLK_IDLE_LEVEL`: level of the clock line between bits (R7, D10). -/
def clkIdle : Level := false

/-- FREE VALUE (log 1): what element `i` of DCMEM holds when nothing has written it since the power-on
numbered `draw` (U7: "a draw per element, within the element width"). -/
opaque dcElement (draw i : Nat) : BitVec 8

/-- FREE VALUE (log 1): the same for PWMMEM (U7). -/
opaque pwmElement (draw i : Nat) : BitVec 16

/-- FREE VALUE (log 7): shift-register window of chain IC `m` at draw `draw` (R231). -/
opaque chainSr (draw m : Nat) : BitVec 32

/-- FREE VALUE (log 7, log 8): dot-correction register of channel `k` of chain IC `m` at draw `draw` (R231, U5). -/
opaque chainDc (draw m k : Nat) : BitVec 7

/-- FREE VALUE (log 7, log 8): intensity register of channel `k` of chain IC `m` at draw `draw` (R231, U5). -/
opaque chainPwm (draw m k : Nat) : BitVec 10

/-- FREE VALUE (log 7, log 8): clock-mode register of chain IC `m` at draw `draw` (R231, U5). -/
opaque chainClockMode (draw m : Nat) : BitVec 2

end Sys2Proof.Config
end

