-- ==== Sys2Proof/Machine/State.lean ====
section
/-! DEFINITION. The state of the controller (10_state.md R20), of the reference chain (20_memory.md R66), and of
the host's port (60_exceptions.md R212); the model-level faults and refusals (60_exceptions.md R202); the state
after reset (10_state.md R34). -/

namespace Sys2Proof.Machine

/-- Link events (R67). The line is named by its role; `CFG` gives the identifier. -/
inductive Event where
  | writeLine (line : Line) (level : Level)
  | shiftOutByte (b : Byte)
  | waitMicroseconds (n : Nat)
  deriving DecidableEq, Repr

/-- `ENSTATE` (R24). -/
inductive EnState where
  | disabled | enabled
  deriving DecidableEq, Repr

/-- `CFG`: the chain length and the four line identifiers (R21, R22). -/
structure Cfg where
  chainLength : BitVec 8
  clk : BitVec 8
  en : BitVec 8
  lat : BitVec 8
  dat : BitVec 8
  deriving DecidableEq, Repr

/-- `LVL`: the level last driven on each line (R25). -/
structure Levels where
  clk : Level
  en : Level
  lat : Level
  dat : Level
  deriving DecidableEq, Repr

/-- The phases of the sequencer (R27, R154). -/
inductive Phase where
  | idle | load | shift | latchAssert | latchHold | latchRelease | latchSettle
  deriving DecidableEq, Repr

/-- `SEQ` (R27). `space` is the MODEL's own field: which array the Send in progress reads, implied by R154's
"Encode(...)" (log 13). -/
structure Seq where
  phase : Phase
  space : Space
  ic : BitVec 8
  byte : BitVec 2
  bit : BitVec 3
  deriving DecidableEq, Repr

/-- An array: its written elements as (index, value) pairs, indices strictly rising. An index with no pair has
not been written since power-on (R28, R29, U7; log 1). `Mem 8` is a list of `Host.Cell`. -/
abbrev Mem (w : Nat) := List (Nat × BitVec w)

/-- The parameters R7 leaves open, fixed for a run: no step changes them (log 5). -/
structure Params where
  /-- `DC_LEN`, allocated length of DCMEM in elements, 0 to 65535. -/
  dcSize : Fin 65536
  /-- `PWM_LEN`, allocated length of PWMMEM in elements, 0 to 65535. -/
  pwmSize : Fin 65536
  /-- `ENABLE_ACTIVE_LEVEL` (D9). -/
  enableActive : Level
  /-- `LATCH_ACTIVE_LEVEL` (D8). -/
  latchActive : Level
  deriving DecidableEq, Repr

/-- `DC_LEN` as a number (R7). -/
def Params.dcLen (p : Params) : Nat := p.dcSize.val

/-- `PWM_LEN` as a number (R7). -/
def Params.pwmLen (p : Params) : Nat := p.pwmSize.val

/-- One chain IC of the reference receiver (R66): its 32-bit window of `SR`, its latched registers, the
clock-mode register that address `01` also selects (R83, R239; log 9), and whether the receiver has refused a
window (U5; log 8). -/
structure ChainIC where
  sr : BitVec 32
  dc0 : BitVec 7
  dc1 : BitVec 7
  dc2 : BitVec 7
  pwm0 : BitVec 10
  pwm1 : BitVec 10
  pwm2 : BitVec 10
  clockMode : BitVec 2
  /-- The first window latched since the last power cycle that is no packet of the block, if any: from then on the
  receiver gives the IC's registers no meaning (U5; log 8). -/
  refused : Option (BitVec 32)
  deriving DecidableEq, Repr

/-- What the outside can do to the machine between commands (R31, R212, R230, R231). -/
inductive Input where
  /-- The host issues a command word (R64, R88). -/
  | command (w : CommandWord)
  /-- A wire packet by itself: not a host command, the model's way to step one packet row (log 10). -/
  | packet (p : Packet)
  /-- The host writes an element of its DCMEM (R31, R36). -/
  | writeDC (i : Nat) (v : BitVec 8)
  /-- The host writes an element of its PWMMEM (R31, R36). -/
  | writePWM (i : Nat) (v : BitVec 16)
  /-- Power-on or reset input of the controller (R230). -/
  | reset
  /-- Power cycle of the chain (R231). -/
  | resetChain
  deriving DecidableEq, Repr

/-- The whole state. -/
structure State where
  /-- `CONFIGURED` (R23). -/
  configured : Bool
  /-- `CFG` (R21, R22). -/
  cfg : Cfg
  /-- `ENSTATE` (R24). -/
  enState : EnState
  /-- `LVL` (R25). -/
  lvl : Levels
  /-- `PKT` (R26). -/
  pkt : Packet
  /-- `SEQ` (R27). -/
  seq : Seq
  /-- `DCMEM` (R28). -/
  dcmem : Mem 8
  /-- `PWMMEM` (R29). -/
  pwmmem : Mem 16
  /-- `TRACE`, oldest event first (R33). -/
  trace : List Event
  /-- The open parameters (R7). -/
  params : Params
  /-- The chain of the reference receiver, IC 1 first; its length is the physical chain length `M` (R66). -/
  chain : List ChainIC
  /-- MODEL's own: the number of the power-on that names unwritten array elements (log 1). -/
  arrayDraw : Nat
  /-- MODEL's own: the number of the next draw of chain-register free values (log 7, log 8). -/
  draws : Nat
  /-- The host's pending inputs, oldest first (R60, R64, D18; log 11). -/
  port : List Input
  deriving DecidableEq, Repr

/-- Model-level faults (R202). -/
inductive Fault where
  /-- Raised by `MemRead` and `MemWrite` in any setter or Send, and by a host write, at an index not below the
  array's length (R52, U1). It records the space and the index (R202) and the two arrays as the faulted state has them: the
writes made before the access stand (R111, U1; log 19). SAFE: the spec calls the access undefined behaviour and
gives it no value. -/
  | arrayBounds (space : Space) (i : Nat) (dcmem : Mem 8) (pwmmem : Mem 16)
  deriving DecidableEq, Repr

/-- Model-level refusals (R202). -/
inductive Refusal where
  /-- Raised by `exec` for an instruction that has no meaning yet. SAFE: the machine stops. -/
  | notModelled (mnemonic : String)
  /-- Raised by every instruction but Configure and Nop while `CONFIGURED = 0`; records the instruction (R23,
  R202, D13). SAFE: the machine stops. -/
  | unconfigured (i : Instr)
  /-- Raised by Configure with two equal line identifiers; records them (R22, R202, D20). SAFE: the machine
  stops. -/
  | lineIdCollision (clk en lat dat : BitVec 8)
  /-- Raised by `step` for a word on the link that is no packet of the block (R83, R84, U5). SAFE: the machine
  stops. -/
  | strayPacket (p : Packet)
  deriving DecidableEq, Repr

/-- Chain IC `m` after a power cycle: every register a free value of draw `draw` (R231; log 7). -/
def powerOnIC (draw m : Nat) : ChainIC where
  sr := Config.chainSr draw m
  dc0 := Config.chainDc draw m 0
  dc1 := Config.chainDc draw m 1
  dc2 := Config.chainDc draw m 2
  pwm0 := Config.chainPwm draw m 0
  pwm1 := Config.chainPwm draw m 1
  pwm2 := Config.chainPwm draw m 2
  clockMode := Config.chainClockMode draw m
  refused := none

/-- The machine right after reset (R34, R230). `configured`, `enState`, `seq.phase` and `trace` are the spec's;
`params` holds the spec's defaults and lengths the model chose (log 5); the chain is one IC (log 6) with free
registers (log 7); every other register holds the value the model names (log 2, log 3, log 4). -/
def State.reset : State where
  configured := false
  cfg := { chainLength := 0, clk := 0, en := 0, lat := 0, dat := 0 }
  enState := .disabled
  lvl := { clk := false, en := false, lat := false, dat := false }
  pkt := 0
  seq := { phase := .idle, space := .dcmem, ic := 0, byte := 0, bit := 0 }
  dcmem := []
  pwmmem := []
  trace := []
  params := { dcSize := Fin.ofNat 65536 Config.maxSlots, pwmSize := Fin.ofNat 65536 Config.maxSlots, enableActive := true, latchActive := true }
  chain := [powerOnIC 0 1]
  arrayDraw := 0
  draws := 1
  port := []

end Sys2Proof.Machine
end

