-- ==== Sys2Proof/Machine/Operands.lean ====
section
/-! DEFINITION. Operand forms: the masks (30_encoding.md R85, R91), the slot index (10_state.md R30), the bytes of
a packet (R87), and the line identifier of a role (R22). -/

namespace Sys2Proof.Machine

/-- `mask_7`: the low 7 bits (R10, R85). -/
def mask7 {w : Nat} (v : BitVec w) : BitVec 7 := v.setWidth 7

/-- `mask_10`: the low 10 bits (R10, R85). -/
def mask10 {w : Nat} (v : BitVec w) : BitVec 10 := v.setWidth 10

/-- What a dot-correction setter stores for operand `v`: `zext_8(mask_7(v))` (R52, R110). -/
def dcOperand (v : BitVec 16) : BitVec 8 := (mask7 v).setWidth 8

/-- What an intensity setter stores for operand `v`: `zext_16(mask_10(v))` (R52, R112). -/
def pwmOperand (v : BitVec 16) : BitVec 16 := (mask10 v).setWidth 16

/-- The array index of channel `k` of IC `n` (R30). -/
def slot (n k : Nat) : Nat := (n - 1) * 3 + k

/-- Of three values, one per channel, the one that belongs to the channel of array index `i` (R30). -/
def byChannel {α : Type} (i : Nat) (e0 e1 e2 : α) : α := if i % 3 = 0 then e0 else if i % 3 = 1 then e1 else e2

/-- Byte `j` of a packet, `P[8j+7 : 8j]` (R27, R87). -/
def packetByte (p : Packet) (j : Nat) : Byte := p.extractLsb' (8 * j) 8

/-- The identifier the configuration gives a line (R22, R67). -/
def Cfg.lineId (c : Cfg) : Line → BitVec 8
  | .clk => c.clk
  | .en => c.en
  | .lat => c.lat
  | .dat => c.dat

end Sys2Proof.Machine
end

