-- ==== Sys2Proof/Machine/Flags.lean ====
section
/-! DEFINITION. The block has no flags and no status register (10_state.md R32, 60_exceptions.md R200). This file
holds the conditions its commands test instead: the range check, the clamp, the identifier check, and the levels
that the open parameters define. -/

namespace Sys2Proof.Machine

/-- The range check of the per-IC setters: `1 <= icNumber <= CFG.chainLength`, over naturals (R110, R114). -/
def inRange (ic chainLength : BitVec 8) : Bool :=
  decide (1 ≤ ic.toNat) && decide (ic.toNat ≤ chainLength.toNat)

/-- Configure's clamp: a count outside 1 to 250 becomes 250 (R181, C1, D5). -/
def clampICs (ics : BitVec 8) : BitVec 8 :=
  if Config.minChain ≤ ics.toNat ∧ ics.toNat ≤ Config.maxChain then ics else BitVec.ofNat 8 Config.maxChain

/-- The level SetEnabled drives (R180). -/
def enableLevel (p : Params) (enabled : Bool) : Level :=
  if enabled then p.enableActive else !p.enableActive

/-- The state SetEnabled records (R180). -/
def enableState (enabled : Bool) : EnState := if enabled then .enabled else .disabled

/-- The number of ICs a command walks, `N = CFG.chainLength` (R21). -/
def State.count (s : State) : Nat := s.cfg.chainLength.toNat

end Sys2Proof.Machine
end

