-- ==== Sys2Proof/Machine/Chain.lean ====
section
/-! DEFINITION. The reference receiver: the chain of LED-driver ICs as seen from the link (20_memory.md R66,
informative; log 6). `SR` is kept as one 32-bit window per IC, IC 1 first: window `m` is
`SR[32*(m-1)+31 : 32*(m-1)]`. -/

namespace Sys2Proof.Machine

/-- A rising clock edge: `SR <- (SR << 1) | dat` over the whole chain; each window's top bit moves into the next
IC's window, the last one's falls off (R66). -/
def shiftChain (dat : Bool) : List ChainIC → List ChainIC
  | [] => []
  | ic :: rest =>
    { ic with sr := ic.sr <<< 1 ||| (BitVec.ofBool dat).setWidth 32 } :: shiftChain ic.sr.msb rest

/-- What the receiver makes of a window that has no meaning (U5): the IC's registers take the free values of draw
`draw`, and `refused` says which window it was. DESIGN CHOICE (log 8): the refusal is the receiver's, recorded at
the IC, and does not stop the block, whose Sends have no failure outcome (R156). -/
def refuseIC (draw m : Nat) (window : BitVec 32) (ic : ChainIC) : ChainIC :=
  { powerOnIC draw m with sr := ic.sr, refused := some window }

/-- The latch edge at chain IC `m` (R66): the address field of its window selects the registers it loads. A window
with address `10` or `11`, or with address `01` and a reserved or clock-mode bit set, is refused: the block never
sends it (R83, R84), and 93 U5 gives it no meaning, where R66's own pseudocode would load by the address alone
(DESIGN CHOICE, log 8). An IC that has refused a window stays refused until a power cycle (log 8). The clock-mode
register is loaded with the dot-correction registers (R83, R239; log 9). -/
def latchIC (draw m : Nat) (ic : ChainIC) : ChainIC :=
  match ic.refused with
  | some window => refuseIC draw m window ic
  | none =>
    if ic.sr &&& wireDCMask = wireDCMatch then
      { ic with
        dc2 := ic.sr.extractLsb' 20 7, dc1 := ic.sr.extractLsb' 10 7, dc0 := ic.sr.extractLsb' 0 7,
        clockMode := ic.sr.extractLsb' 7 2 }
    else if ic.sr &&& wirePWMMask = wirePWMMatch then
      { ic with
        pwm2 := ic.sr.extractLsb' 20 10, pwm1 := ic.sr.extractLsb' 10 10, pwm0 := ic.sr.extractLsb' 0 10 }
    else refuseIC draw m ic.sr ic

/-- The latch edge over the chain, ICs numbered from `m` (R61, R66). -/
def latchChain (draw : Nat) : Nat → List ChainIC → List ChainIC
  | _, [] => []
  | m, ic :: rest => latchIC draw m ic :: latchChain draw (m + 1) rest

/-- A power cycle of the chain, ICs numbered from `m` (R231). -/
def powerOnChain (draw : Nat) : Nat → List ChainIC → List ChainIC
  | _, [] => []
  | m, _ :: rest => powerOnIC draw m :: powerOnChain draw (m + 1) rest

/-- The level of a line (R25). -/
def Levels.get (l : Levels) : Line → Level
  | .clk => l.clk
  | .en => l.en
  | .lat => l.lat
  | .dat => l.dat

/-- `LVL[line] <- v` (R25). -/
def Levels.set (l : Levels) (line : Line) (v : Level) : Levels :=
  match line with
  | .clk => { l with clk := v }
  | .en => { l with en := v }
  | .lat => { l with lat := v }
  | .dat => { l with dat := v }

/-- What the chain does when `line` is driven to `v`: it shifts on a rising clock edge, latches when the latch
line goes to its active level, and ignores every other change (R66). -/
def hear (line : Line) (v : Level) (s : State) : State :=
  match line with
  | .clk => if s.lvl.clk = false ∧ v = true then { s with chain := shiftChain s.lvl.dat s.chain } else s
  | .lat =>
    if s.lvl.lat = (!s.params.latchActive) ∧ v = s.params.latchActive then
      { s with chain := latchChain s.draws 1 s.chain, draws := s.draws + 1 }
    else s
  | .en => s
  | .dat => s

/-- One output line is driven: the chain hears it and `LVL` records it (R25, R66). -/
def driveLine (line : Line) (v : Level) (s : State) : State :=
  { hear line v s with lvl := s.lvl.set line v }

/-- What chain IC outputs show: its registers while the enable line is at its active level, nothing otherwise
(R66, R180). -/
def State.visible (s : State) : List (Option ChainIC) :=
  s.chain.map fun ic => if s.lvl.en = s.params.enableActive then some ic else none

end Sys2Proof.Machine
end

