-- ==== Sys2Proof/Machine/Ops.lean ====
section
/-! DEFINITION. The named operations: array access (20_memory.md R52), the link primitives (R67, R68), EmitPacket
and LatchPulse (42_chain_transmit.md R152, R153), and the gate every command passes (R23). The block takes no
exception and has none to return from (60_exceptions.md R200, R205): what stands in their place is the one
model-level fault, raised here by the access primitives alone. -/

namespace Sys2Proof.Machine

/-- The written value of element `i`, if any (log 1). -/
def Mem.get? {w : Nat} : Mem w → Nat → Option (BitVec w)
  | [], _ => none
  | (a, v) :: m, i => if i = a then some v else Mem.get? m i

/-- Write element `i`, keeping the indices strictly rising. -/
def Mem.set {w : Nat} : Mem w → Nat → BitVec w → Mem w
  | [], i, v => [(i, v)]
  | (a, x) :: m, i, v =>
    if i < a then (i, v) :: (a, x) :: m else if i = a then (i, v) :: m else (a, x) :: Mem.set m i v

/-- The canonical form: indices strictly rising. No entry can equal what an unlisted index holds, because an
unlisted index is one that nothing has written (log 1). -/
abbrev Mem.wf {w : Nat} (m : Mem w) : Prop := (m.map Prod.fst).Pairwise (· < ·)

/-- Every written index lies below the allocated length. -/
abbrev Mem.within {w : Nat} (m : Mem w) (len : Nat) : Prop := ∀ c ∈ m, c.1 < len

/-- Element `i` of DCMEM: what was written, else the free value of U7. It is what a direct host read returns
(R31, R36). -/
def State.dcElem (s : State) (i : Nat) : BitVec 8 := (s.dcmem.get? i).getD (Config.dcElement s.arrayDraw i)

/-- Element `i` of PWMMEM, likewise. -/
def State.pwmElem (s : State) (i : Nat) : BitVec 16 := (s.pwmmem.get? i).getD (Config.pwmElement s.arrayDraw i)

/-- `MemRead(DCMEM, i)` (R52). -/
def readDC (s : State) (i : Nat) : Except Fault (BitVec 8) :=
  if i < s.params.dcLen then .ok (s.dcElem i) else .error (.arrayBounds .dcmem i s.dcmem s.pwmmem)

/-- `MemRead(PWMMEM, i)` (R52). -/
def readPWM (s : State) (i : Nat) : Except Fault (BitVec 16) :=
  if i < s.params.pwmLen then .ok (s.pwmElem i) else .error (.arrayBounds .pwmmem i s.dcmem s.pwmmem)

/-- An array write out of bounds: the index, and the array with the writes made before it (R111, U1; log 19). -/
structure WriteStop (w : Nat) where
  index : Nat
  left : Mem w
  deriving DecidableEq, Repr

/-- `MemWrite(space, i, v)` on an array of length `len` (R52). -/
def writeElem {w : Nat} (len : Nat) (m : Mem w) (i : Nat) (v : BitVec w) : Except (WriteStop w) (Mem w) :=
  if i < len then .ok (m.set i v) else .error { index := i, left := m }

/-- The three writes of one IC, channels 0, 1, 2 in that order (R58, R110, D14). -/
def writeIC {w : Nat} (len n : Nat) (e0 e1 e2 : BitVec w) (m : Mem w) : Except (WriteStop w) (Mem w) := do
  let m0 ← writeElem len m (slot n 0) e0
  let m1 ← writeElem len m0 (slot n 1) e1
  writeElem len m1 (slot n 2) e2

/-- The writes of a broadcast setter, ICs 1 to `n` in that order (R58, R111, D14). -/
def writeICs {w : Nat} (len : Nat) (e0 e1 e2 : BitVec w) : Nat → Mem w → Except (WriteStop w) (Mem w)
  | 0, m => .ok m
  | n + 1, m => do
    let m' ← writeICs len e0 e1 e2 n m
    writeIC len (n + 1) e0 e1 e2 m'

/-- `SEQ <- q` (R10, R27). -/
def withSeq (q : Seq) (s : State) : State := { s with seq := q }

/-- `PKT <- p` (R10, R26). -/
def withPkt (p : Packet) (s : State) : State := { s with pkt := p }

/-- Append an event to TRACE (R33, R67). -/
def record (e : Event) (s : State) : State := { s with trace := s.trace ++ [e] }

/-- The line writes of one bit: data, clock high, clock low (R68). -/
def bitPins (d : Bool) : List (Line × Level) := [(.dat, d), (.clk, !Config.clkIdle), (.clk, Config.clkIdle)]

/-- The line writes of bits `n-1` down to 0 of a byte (R54, R68). -/
def bytePins (b : Byte) : Nat → List (Line × Level)
  | 0 => []
  | n + 1 => bitPins (b.getLsbD n) ++ bytePins b n

/-- The pin-level view of an event (R67, R68): a line write is itself, a byte its 24 line writes, a wait none. -/
def Event.pins : Event → List (Line × Level)
  | .writeLine line level => [(line, level)]
  | .shiftOutByte b => bytePins b 8
  | .waitMicroseconds _ => []

/-- A list of line writes, in order. -/
def drivePins (ps : List (Line × Level)) (s : State) : State := ps.foldl (fun s p => driveLine p.1 p.2 s) s

/-- One link event: the lines move as its pin-level view says, and TRACE records it (R25, R67). -/
def emit (e : Event) (s : State) : State := record e (drivePins e.pins s)

/-- `WriteLine(line, level)` (R67). -/
def writeLine (line : Line) (v : Level) (s : State) : State := emit (.writeLine line v) s

/-- `ShiftOutByte(b)` (R67, R68). -/
def shiftOutByte (b : Byte) (s : State) : State := emit (.shiftOutByte b) s

/-- `WaitMicroseconds(n)` (R67): a request in the trace, no model time (R8). -/
def waitMicroseconds (n : Nat) (s : State) : State := emit (.waitMicroseconds n) s

/-- `EmitPacket(P)`: four transfers, most significant byte first (R53, R152). -/
def emitPacket (p : Packet) (s : State) : State :=
  shiftOutByte (packetByte p 0)
    (shiftOutByte (packetByte p 1) (shiftOutByte (packetByte p 2) (shiftOutByte (packetByte p 3) s)))

/-- `LatchPulse()` (R153). -/
def latchPulse (s : State) : State :=
  waitMicroseconds Config.waitRequestUs
    (writeLine .lat (!s.params.latchActive)
      (waitMicroseconds Config.waitRequestUs (writeLine .lat s.params.latchActive s)))

/-- The gate of every instruction but Configure and Nop: refused before Configure (R23, R202, R204). -/
def whenConfigured (i : Instr) (s : State) (k : Host.Outcome State Fault Refusal) : Host.Outcome State Fault Refusal :=
  if s.configured then k else .refused (.unconfigured i)

/-- A run of array accesses ends in the next state or in its fault (R205). -/
def finish : Except Fault State → Host.Outcome State Fault Refusal
  | .ok s => .next s
  | .error f => .fault f

end Sys2Proof.Machine
end

