-- ==== Sys2Proof/Machine/Control.lean ====
section
/-! DEFINITION. The Device Enable Controller, the chain configuration and Nop (43_enable_config.md R180 to R183). -/

namespace Sys2Proof.Machine

/-- SetEnabled (R180): one WriteLine on every call, also when the state does not change. -/
def execSetEnabled (enabled : Bool) (s : State) : Host.Outcome State Fault Refusal :=
  whenConfigured (.setEnabled enabled) s
    (.next { writeLine .en (enableLevel s.params enabled) s with enState := enableState enabled })

/-- The four line writes of Configure, in the order clock, enable, latch, data (R181, D11). -/
def driveIdle (s : State) : State :=
  writeLine .dat false
    (writeLine .lat (!s.params.latchActive) (writeLine .en (!s.params.enableActive) (writeLine .clk Config.clkIdle s)))

/-- The effect of the first Configure (R181). -/
def construct (ics clk en lat dat : BitVec 8) (s : State) : State :=
  { driveIdle { s with cfg := { chainLength := clampICs ics, clk := clk, en := en, lat := lat, dat := dat },
                       enState := .disabled } with configured := true }

/-- Configure (R181). Colliding identifiers are refused before anything else (R22, R202, R204; log 17); a
Configure of a configured block changes nothing (D13). -/
def execConfigure (ics clk en lat dat : BitVec 8) (s : State) : Host.Outcome State Fault Refusal :=
  if idsDistinct clk en lat dat then
    if s.configured then .next s else .next (construct ics clk en lat dat s)
  else .refused (.lineIdCollision clk en lat dat)

/-- Nop (R182). -/
def execNop (s : State) : Host.Outcome State Fault Refusal := .next s

end Sys2Proof.Machine
end

