-- ==== Sys2Proof/Machine/Encoder.lean ====
section
/-! DEFINITION. The Bit-Packet Encoder (41_packet_encoder.md R130 to R133, 30_encoding.md R81 to R87). -/

namespace Sys2Proof.Machine

/-- The left fold of R86: each pair (value, width) is masked to its width and shifted in. -/
def pack (fields : List (Nat × Nat)) : Packet :=
  fields.foldl (fun (acc : BitVec 32) f => acc <<< f.2 ||| BitVec.ofNat 32 (f.1 % 2 ^ f.2)) 0#32

/-- `DC_FIELDS(c0, c1, c2)` (R86). -/
def dcFields (c0 c1 c2 : Nat) : List (Nat × Nat) :=
  [(1, 2), (0, 3), (c2, 7), (0, 3), (c1, 7), (0, 1), (0, 2), (c0, 7)]

/-- `PWM_FIELDS(c0, c1, c2)` (R86). -/
def pwmFields (c0 c1 c2 : Nat) : List (Nat × Nat) := [(0, 2), (c2, 10), (c1, 10), (c0, 10)]

/-- `EncodeDotCorrection(c0, c1, c2)` (R81, R130); the rule holds for any element width. -/
def encodeDotCorrection {w : Nat} (c0 c1 c2 : BitVec w) : Packet :=
  0b01#2 ++ 0#3 ++ mask7 c2 ++ 0#3 ++ mask7 c1 ++ 0#1 ++ 0#2 ++ mask7 c0

/-- `EncodeIntensity(c0, c1, c2)` (R82, R131). -/
def encodeIntensity {w : Nat} (c0 c1 c2 : BitVec w) : Packet :=
  0b00#2 ++ mask10 c2 ++ mask10 c1 ++ mask10 c0

/-- The packet of IC `n` from the array of `space`: its three slots read in order, then encoded (R132, R150,
R151). -/
def loadPacket (space : Space) (s : State) (n : Nat) : Except Fault Packet :=
  match space with
  | .dcmem => do
    let c0 ← readDC s (slot n 0)
    let c1 ← readDC s (slot n 1)
    let c2 ← readDC s (slot n 2)
    .ok (encodeDotCorrection c0 c1 c2)
  | .pwmmem => do
    let c0 ← readPWM s (slot n 0)
    let c1 ← readPWM s (slot n 1)
    let c2 ← readPWM s (slot n 2)
    .ok (encodeIntensity c0 c1 c2)

end Sys2Proof.Machine
end

