-- ==== Sys2Proof/Machine/Setters.lean ====
section
/-! DEFINITION. The Chain Array Manager's four setters (40_array_setters.md R110 to R114). -/

namespace Sys2Proof.Machine

/-- Put the result of array writes into DCMEM; where they stopped, the fault records DCMEM as they left it (U1). -/
def setDCMem (s : State) (r : Except (WriteStop 8) (Mem 8)) : Host.Outcome State Fault Refusal :=
  match r with
  | .ok m => .next { s with dcmem := m }
  | .error e => .fault (.arrayBounds .dcmem e.index e.left s.pwmmem)

/-- Put the result of array writes into PWMMEM; where they stopped, the fault records PWMMEM as they left it (U1). -/
def setPWMMem (s : State) (r : Except (WriteStop 16) (Mem 16)) : Host.Outcome State Fault Refusal :=
  match r with
  | .ok m => .next { s with pwmmem := m }
  | .error e => .fault (.arrayBounds .pwmmem e.index s.dcmem e.left)

/-- SetDotCorrectionForIC (R110): dropped as a whole when the IC number is out of range. -/
def execSetDotCorrectionForIC (ic : BitVec 8) (v0 v1 v2 : BitVec 16) (s : State) : Host.Outcome State Fault Refusal :=
  whenConfigured (.setDotCorrectionForIC ic v0 v1 v2) s <|
    if inRange ic s.cfg.chainLength then
      setDCMem s (writeIC s.params.dcLen ic.toNat (dcOperand v0) (dcOperand v1) (dcOperand v2) s.dcmem)
    else .next s

/-- SetDotCorrectionForAllICs (R111). -/
def execSetDotCorrectionForAllICs (v0 v1 v2 : BitVec 16) (s : State) : Host.Outcome State Fault Refusal :=
  whenConfigured (.setDotCorrectionForAllICs v0 v1 v2) s <|
    setDCMem s (writeICs s.params.dcLen (dcOperand v0) (dcOperand v1) (dcOperand v2) s.count s.dcmem)

/-- SetIntensityForIC (R112). -/
def execSetIntensityForIC (ic : BitVec 8) (v0 v1 v2 : BitVec 16) (s : State) : Host.Outcome State Fault Refusal :=
  whenConfigured (.setIntensityForIC ic v0 v1 v2) s <|
    if inRange ic s.cfg.chainLength then
      setPWMMem s (writeIC s.params.pwmLen ic.toNat (pwmOperand v0) (pwmOperand v1) (pwmOperand v2) s.pwmmem)
    else .next s

/-- SetIntensityForAllICs (R113). -/
def execSetIntensityForAllICs (v0 v1 v2 : BitVec 16) (s : State) : Host.Outcome State Fault Refusal :=
  whenConfigured (.setIntensityForAllICs v0 v1 v2) s <|
    setPWMMem s (writeICs s.params.pwmLen (pwmOperand v0) (pwmOperand v1) (pwmOperand v2) s.count s.pwmmem)

end Sys2Proof.Machine
end

