-- ==== Sys2Proof/Machine/Transmit.lean ====
section
/-! DEFINITION. The Chain Transmitter: the two Sends as one atomic step each (42_chain_transmit.md R150, R151, D15)
and the two wire packets (R130, R131, R152). -/

namespace Sys2Proof.Machine

/-- `PKT <- P; EmitPacket(PKT)` (R133, R150). -/
def transmitPacket (p : Packet) (s : State) : State := emitPacket p (withPkt p s)

/-- The loop of a Send over ICs `n` down to 1 (R56, R150). -/
def sendPackets (space : Space) : Nat → State → Except Fault State
  | 0, s => .ok s
  | n + 1, s => do
    let p ← loadPacket space s (n + 1)
    sendPackets space n (transmitPacket p s)

/-- Where the walk of a Send leaves the sequencer (R154, R158; log 13). -/
def restSeq (space : Space) : Seq := { phase := .idle, space := space, ic := 1, byte := 0, bit := 7 }

/-- A whole Send of the array of `space` (R150, R151). -/
def send (space : Space) (s : State) : Except Fault State := do
  let s' ← sendPackets space s.count s
  .ok (withSeq (restSeq space) (latchPulse s'))

/-- SendDotCorrection (R150). -/
def execSendDotCorrection (s : State) : Host.Outcome State Fault Refusal :=
  whenConfigured .sendDotCorrection s (finish (send .dcmem s))

/-- SendIntensity (R151). -/
def execSendIntensity (s : State) : Host.Outcome State Fault Refusal :=
  whenConfigured .sendIntensity s (finish (send .pwmmem s))

/-- The wire packet `W-DC`: built, put into PKT and emitted, as one IC's part of a Send (R130, R152; log 10). -/
def execWireDC (c0 c1 c2 : BitVec 7) (s : State) : Host.Outcome State Fault Refusal :=
  whenConfigured (.wireDC c0 c1 c2) s (.next (transmitPacket (encodeDotCorrection c0 c1 c2) s))

/-- The wire packet `W-PWM`, likewise (R131, R152; log 10). -/
def execWirePWM (c0 c1 c2 : BitVec 10) (s : State) : Host.Outcome State Fault Refusal :=
  whenConfigured (.wirePWM c0 c1 c2) s (.next (transmitPacket (encodeIntensity c0 c1 c2) s))

end Sys2Proof.Machine
end

