-- ==== Sys2Proof/Machine/Dispatch.lean ====
section
/-! DEFINITION. Dispatch: one arm per constructor of `Instr`, each one call of its meaning. -/

namespace Sys2Proof.Machine

def exec (i : Instr) (s : State) : Host.Outcome State Fault Refusal :=
  match i with
  | .nop => Sys2Proof.Machine.execNop s
  | .configure ics clk en lat dat => Sys2Proof.Machine.execConfigure ics clk en lat dat s
  | .setDotCorrectionForIC ic v0 v1 v2 => Sys2Proof.Machine.execSetDotCorrectionForIC ic v0 v1 v2 s
  | .setDotCorrectionForAllICs v0 v1 v2 => Sys2Proof.Machine.execSetDotCorrectionForAllICs v0 v1 v2 s
  | .setIntensityForIC ic v0 v1 v2 => Sys2Proof.Machine.execSetIntensityForIC ic v0 v1 v2 s
  | .setIntensityForAllICs v0 v1 v2 => Sys2Proof.Machine.execSetIntensityForAllICs v0 v1 v2 s
  | .sendDotCorrection => Sys2Proof.Machine.execSendDotCorrection s
  | .sendIntensity => Sys2Proof.Machine.execSendIntensity s
  | .setEnabled enabled => Sys2Proof.Machine.execSetEnabled enabled s
  | .wireDC c0 c1 c2 => Sys2Proof.Machine.execWireDC c0 c1 c2 s
  | .wirePWM c0 c1 c2 => Sys2Proof.Machine.execWirePWM c0 c1 c2 s

end Sys2Proof.Machine
end

