-- ==== Sys2Proof/Machine/HostPort.lean ====
section
/-! DEFINITION. The host's port (60_exceptions.md R212): running a decoded word, direct array writes by the host
(10_state.md R31, R36), reset of the controller (70_reset_and_hazards.md R230) and power cycle of the chain
(R231). -/

namespace Sys2Proof.Machine

/-- Run what the decoder answered: an instruction has its meaning, a reserved opcode is ignored (R90, R182), a
word that is no packet has no meaning (U5). -/
def runDecoded (d : Decoded) (s : State) : Host.Outcome State Fault Refusal :=
  match d with
  | .instr i => exec i s
  | .reserved _ => .next s
  | .stray p => .refused (.strayPacket p)

/-- The controller after power-on or reset (R230): as `State.reset`, with every unwritten array element a new
free value (R231, U7). Parameters, chain and pending inputs are not the controller's to reset (R231; log 18). -/
def resetController (s : State) : State :=
  { State.reset with
    params := s.params, chain := s.chain, arrayDraw := s.draws, draws := s.draws + 1, port := s.port }

/-- The chain after a power cycle (R231). -/
def resetChain (s : State) : State :=
  { s with chain := powerOnChain s.draws 1 s.chain, draws := s.draws + 1 }

/-- The machine takes one input (R212). -/
def accept (inp : Input) (s : State) : Host.Outcome State Fault Refusal :=
  match inp with
  | .command w => runDecoded (decode (.command w)) s
  | .packet p => runDecoded (decode (.packet p)) s
  | .writeDC i v => setDCMem s (writeElem s.params.dcLen s.dcmem i v)
  | .writePWM i v => setPWMMem s (writeElem s.params.pwmLen s.pwmmem i v)
  | .reset => .next (resetController s)
  | .resetChain => .next (resetChain s)

/-- The input that carries an encoded word. -/
def inputOf : Code → Input
  | .command w => .command w
  | .packet p => .packet p

/-- The next input is taken off the port. -/
def takeInput (s : State) : Host.Outcome State Fault Refusal :=
  match s.port with
  | [] => .next s
  | inp :: rest => accept inp { s with port := rest }

end Sys2Proof.Machine
end

