-- ==== Sys2Proof/Machine/Sequencer.lean ====
section
/-! DEFINITION. The sequencer's walk through a Send, one micro-step at a time (42_chain_transmit.md R154, D15), and
its pin-level refinement into bit steps (R68, R154). `exec` takes a whole Send as one step; this is the same Send
cut into its `5N + 4` parts. -/

namespace Sys2Proof.Machine

/-- `IDLE --Send accepted--> (LOAD, N, -, -)` (R154). -/
def beginSend (space : Space) (s : State) : State :=
  withSeq { s.seq with phase := .load, space := space, ic := s.cfg.chainLength } s

/-- `phase <- p`. -/
def setPhase (p : Phase) (s : State) : State := withSeq { s.seq with phase := p } s

/-- Where the sequencer goes after a byte: the next byte, the next IC, or the latch (R154). -/
def afterByte (q : Seq) : Seq :=
  if 0 < q.byte.toNat then { q with byte := q.byte - 1, bit := 7 }
  else if 1 < q.ic.toNat then { q with phase := .load, ic := q.ic - 1 }
  else { q with phase := .latchAssert }

/-- One micro-step (R154). In phase IDLE there is none. -/
def microStep (s : State) : Host.Outcome State Fault Refusal :=
  match s.seq.phase with
  | .idle => .next s
  | .load =>
    finish ((loadPacket s.seq.space s s.seq.ic.toNat).map fun p =>
      withSeq { s.seq with phase := .shift, byte := 3, bit := 7 } (withPkt p s))
  | .shift =>
    .next (withSeq (afterByte s.seq) (shiftOutByte (packetByte s.pkt s.seq.byte.toNat) s))
  | .latchAssert => .next (setPhase .latchHold (writeLine .lat s.params.latchActive s))
  | .latchHold => .next (setPhase .latchRelease (waitMicroseconds Config.waitRequestUs s))
  | .latchRelease => .next (setPhase .latchSettle (writeLine .lat (!s.params.latchActive) s))
  | .latchSettle => .next (setPhase .idle (waitMicroseconds Config.waitRequestUs s))

/-- `k` micro-steps, ending at the first fault. -/
def microSteps : Nat → State → Host.Outcome State Fault Refusal
  | 0, s => .next s
  | k + 1, s =>
    match microStep s with
    | .next s' => microSteps k s'
    | .fault f => .fault f
    | .refused r => .refused r

/-- One bit step of phase SHIFT at the pin level (R68, R154): the three line writes of bit `bit` of the byte; with
bit 0 the byte's event is complete and the sequencer moves on. -/
def bitStep (s : State) : State :=
  let b := packetByte s.pkt s.seq.byte.toNat
  let s' := drivePins (bitPins (b.getLsbD s.seq.bit.toNat)) s
  if 0 < s.seq.bit.toNat then withSeq { s.seq with bit := s.seq.bit - 1 } s'
  else withSeq (afterByte { s.seq with bit := 7 }) (record (.shiftOutByte b) s')

end Sys2Proof.Machine
end

