-- ==== Sys2Proof/Machine/Step.lean ====
section
/-! DEFINITION. One step of the machine: the next micro-step of a Send in progress, otherwise the next input of the
host, otherwise waiting (20_memory.md R60, R64; 42_chain_transmit.md R157; 10_state.md R34). -/

namespace Sys2Proof.Machine

/-- No input is taken before the Send in progress has finished (R157). `exec` runs a whole Send at once, so a
state between micro-steps arises only from `beginSend`, never in a run from reset (log 13). -/
def step (s : State) : Host.Outcome State Fault Refusal :=
  match s.seq.phase with
  | .idle => takeInput s
  | .load => microStep s
  | .shift => microStep s
  | .latchAssert => microStep s
  | .latchHold => microStep s
  | .latchRelease => microStep s
  | .latchSettle => microStep s

/-- The instruction whose bits are `w` stands at the head of the port, and no Send is in progress: the next step
runs it (log 11). -/
def State.withFetchWord (s : State) (nbits w : Nat) : State :=
  { s with port := inputOf (tableCode nbits w) :: s.port, seq := { s.seq with phase := .idle } }

end Sys2Proof.Machine
end

