-- ==== Sys2Proof/Safety.lean ====
section
/-! DEFINITION. The terms the claims use: the invariant of the machine between commands, the caller's obligation on
array lengths, what a Send is to emit, and which state the block reads. -/

namespace Sys2Proof.Machine

/-- What holds between commands: the sequencer rests (R27); once configured, the chain length is in 1 to 250
(R21), the identifiers are distinct (R22), the enable line agrees with ENSTATE (R183), clock and latch lines rest
at their inactive levels (R34, R153); before that nothing has been emitted (R34); the arrays are in canonical form
and written only below their lengths (R52). -/
structure State.Inv (s : State) : Prop where
  resting : s.seq.phase = .idle
  length : s.configured = true → 1 ≤ s.count ∧ s.count ≤ Config.maxChain
  distinct : s.configured = true → idsDistinct s.cfg.clk s.cfg.en s.cfg.lat s.cfg.dat = true
  enable : s.configured = true → (s.lvl.en = s.params.enableActive ↔ s.enState = .enabled)
  lines : s.configured = true → s.lvl.clk = Config.clkIdle ∧ s.lvl.lat = !s.params.latchActive
  silent : s.configured = false → s.enState = .disabled ∧ s.trace = []
  dcWf : s.dcmem.wf
  pwmWf : s.pwmmem.wf
  dcWithin : s.dcmem.within s.params.dcLen
  pwmWithin : s.pwmmem.within s.params.pwmLen

/-- The caller's obligation: each array has at least `3 * CFG.chainLength` elements (R52, R237). -/
abbrev State.ArraysFit (s : State) : Prop := 3 * s.count ≤ s.params.dcLen ∧ 3 * s.count ≤ s.params.pwmLen

/-- The allocated length of a space (R7). -/
def Params.len (p : Params) : Space → Nat
  | .dcmem => p.dcLen
  | .pwmmem => p.pwmLen

/-- The packet of IC `n` as the array of `space` stands (R132). -/
def packetAt (space : Space) (s : State) (n : Nat) : Packet :=
  match space with
  | .dcmem => encodeDotCorrection (s.dcElem (slot n 0)) (s.dcElem (slot n 1)) (s.dcElem (slot n 2))
  | .pwmmem => encodeIntensity (s.pwmElem (slot n 0)) (s.pwmElem (slot n 1)) (s.pwmElem (slot n 2))

/-- The four events of a packet, `P[31:24]` first (R53, R152). -/
def packetEvents (p : Packet) : List Event :=
  [.shiftOutByte (p.extractLsb' 24 8), .shiftOutByte (p.extractLsb' 16 8), .shiftOutByte (p.extractLsb' 8 8),
    .shiftOutByte (p.extractLsb' 0 8)]

/-- The packets of a Send's loop over ICs `n` down to 1 (R56). -/
def packetsDown (space : Space) (s : State) : Nat → List Packet
  | 0 => []
  | n + 1 => packetAt space s (n + 1) :: packetsDown space s n

/-- The four events of the latch pulse (R153). -/
def latchEvents (p : Params) : List Event :=
  [.writeLine .lat p.latchActive, .waitMicroseconds 2, .writeLine .lat (!p.latchActive), .waitMicroseconds 2]

/-- Everything a Send emits (R150, R151): the packets of IC `N` down to IC 1, then one latch pulse. -/
def sendEvents (space : Space) (s : State) : List Event :=
  (packetsDown space s s.count).flatMap packetEvents ++ latchEvents s.params

/-- Two states that agree on all the block reads: configuration, parameters and arrays. They may differ in line
levels, PKT, SEQ, ENSTATE, trace, chain and pending inputs. -/
structure SameToTheBlock (s s' : State) : Prop where
  configured : s.configured = s'.configured
  cfg : s.cfg = s'.cfg
  params : s.params = s'.params
  dcmem : s.dcmem = s'.dcmem
  pwmmem : s.pwmmem = s'.pwmmem
  arrayDraw : s.arrayDraw = s'.arrayDraw

/-- Two outcomes that show the host the same: next states that agree on all the block reads and have emitted the
same new events, or the same fault, or the same refusal. -/
def SameOutcome (s s' : State) : Host.Outcome State Fault Refusal → Host.Outcome State Fault Refusal → Prop
  | .next t, .next t' => SameToTheBlock t t' ∧ ∃ es, t.trace = s.trace ++ es ∧ t'.trace = s'.trace ++ es
  | .fault f, .fault f' => f = f'
  | .refused r, .refused r' => r = r'
  | _, _ => False

/-- The Send command of a space (R150, R151). -/
def sendOf : Space → Instr
  | .dcmem => .sendDotCorrection
  | .pwmmem => .sendIntensity

/-- The instruction is a setter of the array of `space` (R110 to R113). -/
def isSetterOf (space : Space) : Instr → Bool
  | .setDotCorrectionForIC _ _ _ _ => space = .dcmem
  | .setDotCorrectionForAllICs _ _ _ => space = .dcmem
  | .setIntensityForIC _ _ _ _ => space = .pwmmem
  | .setIntensityForAllICs _ _ _ => space = .pwmmem
  | .nop => false
  | .configure _ _ _ _ _ => false
  | .sendDotCorrection => false
  | .sendIntensity => false
  | .setEnabled _ => false
  | .wireDC _ _ _ => false
  | .wirePWM _ _ _ => false

end Sys2Proof.Machine
end

