-- ==== Sys2Proof/Certificates/Slice0/Obligations.lean ====
section
/-! DEFINITION. The statements for the provers. Each docstring says which rule of spec/ it formalises. -/

open Sys2Proof Sys2Proof.Machine

/-! Encodings -/

/-- Words written out from R88, R89, R81, R82 (vectors of 95_test_vectors.md) decode to what they stand for. -/
def Obligations.SampleWordsDecode : Prop :=
  decodeTableWord 64 0x0123456789ABCDEF = some .nop ∧
  decodeTableWord 64 0x1FFFFF030D0A090B = some (.configure 3 13 10 9 11) ∧
  decodeTableWord 64 0x200200FF00810080 = some (.setDotCorrectionForIC 2 128 129 255) ∧
  decodeTableWord 64 0x4F02000300020001 = some (.setIntensityForIC 2 1 2 3) ∧
  decodeTableWord 64 0x8000000000000002 = some (.setEnabled false) ∧
  decodeTableWord 64 0x9000000000000000 = none ∧
  decodeTableWord 32 0x40300801 = some (.wireDC 1 2 3) ∧
  decodeTableWord 32 0x00300801 = some (.wirePWM 1 2 3)

/-- Decoding an encoded instruction gives it back, for every instruction and every operand (R88, R89, R91; R81,
R82). -/
def Obligations.DecodeEncodeRoundTrip : Prop := ∀ i : Instr, decode (encode i) = .instr i

/-- Encoding a decoded word gives it back with its reserved bits cleared; a packet comes back as it is (R88,
R90 (b), R134). -/
def Obligations.EncodeDecodeClearsReservedBits : Prop :=
  (∀ w i, decode (.command w) = .instr i → encode i = .command (w &&& namedBits (opcodeField w))) ∧
  ∀ p i, decode (.packet p) = .instr i → encode i = .packet p

/-- Decoding of command words is total and goes by the opcode alone: opcodes 9 to 15 are reserved, every other word
is an instruction, and bits the format does not name have no effect (R90, R92; decisions D2, D3). -/
def Obligations.CommandWordsDecodeByOpcode : Prop :=
  ∀ w : CommandWord,
    (9 ≤ (opcodeField w).toNat → decode (.command w) = .reserved (opcodeField w)) ∧
    ((opcodeField w).toNat < 9 → ∃ i, decode (.command w) = .instr i) ∧
    ∀ w', opcodeField w' = opcodeField w →
      w' &&& namedBits (opcodeField w) = w &&& namedBits (opcodeField w) → decode (.command w') = decode (.command w)

/-- A 32-bit word is a packet exactly when its constant bits are those of R81 or R82; every other word is stray
(R83, R84, R95). -/
def Obligations.PacketWordsAreTheTwoFormats : Prop :=
  ∀ p : Packet,
    ((∃ c0 c1 c2, decode (.packet p) = .instr (.wireDC c0 c1 c2)) ↔ p &&& 0xF80E0380#32 = 0x40000000#32) ∧
    ((∃ c0 c1 c2, decode (.packet p) = .instr (.wirePWM c0 c1 c2)) ↔ p.extractLsb' 30 2 = 0#2) ∧
    (decode (.packet p) = .stray p ↔ ¬ p &&& 0xF80E0380#32 = 0x40000000#32 ∧ ¬ p.extractLsb' 30 2 = 0#2)

/-- The dot-correction packet's fields stand where R81 puts them, for elements of any width, and the packet is the
number R81 gives. -/
def Obligations.DotCorrectionPacketLayout : Prop :=
  ∀ (w : Nat) (c0 c1 c2 : BitVec w),
    (encodeDotCorrection c0 c1 c2).extractLsb' 30 2 = 0b01#2 ∧
    (encodeDotCorrection c0 c1 c2).extractLsb' 27 3 = 0#3 ∧
    (encodeDotCorrection c0 c1 c2).extractLsb' 20 7 = c2.setWidth 7 ∧
    (encodeDotCorrection c0 c1 c2).extractLsb' 17 3 = 0#3 ∧
    (encodeDotCorrection c0 c1 c2).extractLsb' 10 7 = c1.setWidth 7 ∧
    (encodeDotCorrection c0 c1 c2).extractLsb' 9 1 = 0#1 ∧
    (encodeDotCorrection c0 c1 c2).extractLsb' 7 2 = 0#2 ∧
    (encodeDotCorrection c0 c1 c2).extractLsb' 0 7 = c0.setWidth 7 ∧
    encodeDotCorrection c0 c1 c2 =
      0x40000000#32 ||| (c2.setWidth 7).setWidth 32 <<< 20 ||| (c1.setWidth 7).setWidth 32 <<< 10 |||
        (c0.setWidth 7).setWidth 32

/-- The intensity packet's fields stand where R82 puts them, for elements of any width, and the packet is the
number R82 gives. -/
def Obligations.IntensityPacketLayout : Prop :=
  ∀ (w : Nat) (c0 c1 c2 : BitVec w),
    (encodeIntensity c0 c1 c2).extractLsb' 30 2 = 0b00#2 ∧
    (encodeIntensity c0 c1 c2).extractLsb' 20 10 = c2.setWidth 10 ∧
    (encodeIntensity c0 c1 c2).extractLsb' 10 10 = c1.setWidth 10 ∧
    (encodeIntensity c0 c1 c2).extractLsb' 0 10 = c0.setWidth 10 ∧
    encodeIntensity c0 c1 c2 =
      (c2.setWidth 10).setWidth 32 <<< 20 ||| (c1.setWidth 10).setWidth 32 <<< 10 ||| (c0.setWidth 10).setWidth 32

/-- The left fold of R86 over its two field lists gives the two packets, whatever the elements hold. -/
def Obligations.PackBuildsBothPackets : Prop :=
  ∀ (w : Nat) (c0 c1 c2 : BitVec w),
    pack [(1, 2), (0, 3), (c2.toNat, 7), (0, 3), (c1.toNat, 7), (0, 1), (0, 2), (c0.toNat, 7)] =
      encodeDotCorrection c0 c1 c2 ∧
    pack [(0, 2), (c2.toNat, 10), (c1.toNat, 10), (c0.toNat, 10)] = encodeIntensity c0 c1 c2

/-- EncodeDotCorrection as R130 gives it: its three forms, its range, its corner cases and the source's example. -/
def Obligations.EncodeDotCorrectionRule : Prop :=
  (∀ (w : Nat) (c0 c1 c2 : BitVec w),
    encodeDotCorrection c0 c1 c2 =
      0b01#2 ++ 0#3 ++ c2.setWidth 7 ++ 0#3 ++ c1.setWidth 7 ++ 0#1 ++ 0#2 ++ c0.setWidth 7 ∧
    encodeDotCorrection c0 c1 c2 =
      0x40000000#32 ||| (c2.setWidth 7).setWidth 32 <<< 20 ||| (c1.setWidth 7).setWidth 32 <<< 10 |||
        (c0.setWidth 7).setWidth 32 ∧
    encodeDotCorrection c0 c1 c2 = pack (dcFields c0.toNat c1.toNat c2.toNat) ∧
    0x40000000 ≤ (encodeDotCorrection c0 c1 c2).toNat ∧ (encodeDotCorrection c0 c1 c2).toNat ≤ 0x47F1FC7F ∧
    encodeDotCorrection c0 c1 c2 &&& 0xF80E0380#32 = 0x40000000#32) ∧
  encodeDotCorrection 0#8 0#8 0#8 = 0x40000000#32 ∧
  encodeDotCorrection 127#8 127#8 127#8 = 0x47F1FC7F#32 ∧
  encodeDotCorrection 128#8 129#8 255#8 = 0x47F00400#32 ∧
  encodeDotCorrection 0#8 1#8 127#8 = 0x47F00400#32 ∧
  encodeDotCorrection 1#8 2#8 3#8 = 0x40300801#32 ∧
  packetEvents (encodeDotCorrection 1#8 2#8 3#8) =
    [.shiftOutByte 0x40, .shiftOutByte 0x30, .shiftOutByte 0x08, .shiftOutByte 0x01]

/-- EncodeIntensity as R131 gives it: its three forms, its range, that every value of the range is the encoding of
exactly one triple of 10-bit values, its corner cases and the source's example. -/
def Obligations.EncodeIntensityRule : Prop :=
  (∀ c0 c1 c2 : BitVec 16,
    encodeIntensity c0 c1 c2 = 0b00#2 ++ c2.setWidth 10 ++ c1.setWidth 10 ++ c0.setWidth 10 ∧
    encodeIntensity c0 c1 c2 =
      (c2.setWidth 10).setWidth 32 <<< 20 ||| (c1.setWidth 10).setWidth 32 <<< 10 ||| (c0.setWidth 10).setWidth 32 ∧
    encodeIntensity c0 c1 c2 = pack (pwmFields c0.toNat c1.toNat c2.toNat) ∧
    (encodeIntensity c0 c1 c2).toNat ≤ 0x3FFFFFFF) ∧
  (∀ p : Packet, p.toNat ≤ 0x3FFFFFFF → ∃! c : BitVec 10 × BitVec 10 × BitVec 10,
    encodeIntensity c.1 c.2.1 c.2.2 = p) ∧
  encodeIntensity 0#16 0#16 0#16 = 0#32 ∧
  encodeIntensity 1023#16 1023#16 1023#16 = 0x3FFFFFFF#32 ∧
  encodeIntensity 1024#16 1025#16 2047#16 = 0x3FF00400#32 ∧
  encodeIntensity 0#16 1#16 1023#16 = 0x3FF00400#32 ∧
  encodeIntensity 1#16 2#16 3#16 = 0x00300801#32 ∧
  packetEvents (encodeIntensity 1#16 2#16 3#16) =
    [.shiftOutByte 0x00, .shiftOutByte 0x30, .shiftOutByte 0x08, .shiftOutByte 0x01]

/-- The decoding laws of R134: packets are recovered from their fields, equal packets mean equal masked elements,
and no dot-correction packet is an intensity packet. -/
def Obligations.PacketsDetermineMaskedValues : Prop :=
  (∀ p : Packet, encodeDotCorrection (p.extractLsb' 0 7) (p.extractLsb' 10 7) (p.extractLsb' 20 7) = p ↔
    p &&& 0xF80E0380#32 = 0x40000000#32) ∧
  (∀ p : Packet, p.extractLsb' 30 2 = 0#2 →
    encodeIntensity (p.extractLsb' 0 10) (p.extractLsb' 10 10) (p.extractLsb' 20 10) = p) ∧
  (∀ (w : Nat) (c0 c1 c2 d0 d1 d2 : BitVec w),
    (encodeDotCorrection c0 c1 c2 = encodeDotCorrection d0 d1 d2 ↔
      c0.setWidth 7 = d0.setWidth 7 ∧ c1.setWidth 7 = d1.setWidth 7 ∧ c2.setWidth 7 = d2.setWidth 7) ∧
    (encodeIntensity c0 c1 c2 = encodeIntensity d0 d1 d2 ↔
      c0.setWidth 10 = d0.setWidth 10 ∧ c1.setWidth 10 = d1.setWidth 10 ∧ c2.setWidth 10 = d2.setWidth 10)) ∧
  ∀ (w v : Nat) (c0 c1 c2 : BitVec w) (d0 d1 d2 : BitVec v),
    encodeDotCorrection c0 c1 c2 ≠ encodeIntensity d0 d1 d2

/-! Setters -/

/-- SetDotCorrectionForIC as R110 gives it: dropped as a whole when the IC number is out of range;
otherwise the three slots take the operands' low 7 bits and nothing else changes, or the first slot at or beyond the
array's length faults, with the writes before it made. What arrays that fault records is the model's choice (log 19),
not R110's. -/
def Obligations.SetDotCorrectionForICRule : Prop :=
  ∀ (s : State) (ic : BitVec 8) (v0 v1 v2 : BitVec 16),
    encode (.setDotCorrectionForIC ic v0 v1 v2) = .command (0x2#4 ++ 0#4 ++ ic ++ v2 ++ v1 ++ v0) ∧
    (s.configured = true →
      (ic.toNat < 1 ∨ s.cfg.chainLength.toNat < ic.toNat → exec (.setDotCorrectionForIC ic v0 v1 v2) s = .next s) ∧
      (1 ≤ ic.toNat → ic.toNat ≤ s.cfg.chainLength.toNat →
        (3 * ic.toNat ≤ s.params.dcLen → ∃ t, exec (.setDotCorrectionForIC ic v0 v1 v2) s = .next t ∧
          t = { s with dcmem := t.dcmem } ∧
          t.dcElem (3 * ic.toNat - 3) = (v0 &&& 0x7F#16).setWidth 8 ∧
          t.dcElem (3 * ic.toNat - 2) = (v1 &&& 0x7F#16).setWidth 8 ∧
          t.dcElem (3 * ic.toNat - 1) = (v2 &&& 0x7F#16).setWidth 8 ∧
          ∀ i, i < 3 * ic.toNat - 3 ∨ 3 * ic.toNat - 1 < i → t.dcElem i = s.dcElem i) ∧
        (s.params.dcLen < 3 * ic.toNat → ∃ d, exec (.setDotCorrectionForIC ic v0 v1 v2) s =
            .fault (.arrayBounds .dcmem (max s.params.dcLen (3 * ic.toNat - 3)) d s.pwmmem) ∧
          ∀ i, ({ s with dcmem := d } : State).dcElem i = if 3 * ic.toNat - 3 ≤ i ∧ i < s.params.dcLen then
              byChannel i ((v0 &&& 0x7F#16).setWidth 8) ((v1 &&& 0x7F#16).setWidth 8)
                ((v2 &&& 0x7F#16).setWidth 8)
            else s.dcElem i)))

/-- SetIntensityForIC as R112 gives it: the same on PWMMEM with the low 10 bits. What arrays the fault on a short array
records is the model's choice (log 19), not R112's. -/
def Obligations.SetIntensityForICRule : Prop :=
  ∀ (s : State) (ic : BitVec 8) (v0 v1 v2 : BitVec 16),
    encode (.setIntensityForIC ic v0 v1 v2) = .command (0x4#4 ++ 0#4 ++ ic ++ v2 ++ v1 ++ v0) ∧
    (s.configured = true →
      (ic.toNat < 1 ∨ s.cfg.chainLength.toNat < ic.toNat → exec (.setIntensityForIC ic v0 v1 v2) s = .next s) ∧
      (1 ≤ ic.toNat → ic.toNat ≤ s.cfg.chainLength.toNat →
        (3 * ic.toNat ≤ s.params.pwmLen → ∃ t, exec (.setIntensityForIC ic v0 v1 v2) s = .next t ∧
          t = { s with pwmmem := t.pwmmem } ∧
          t.pwmElem (3 * ic.toNat - 3) = v0 &&& 0x3FF#16 ∧
          t.pwmElem (3 * ic.toNat - 2) = v1 &&& 0x3FF#16 ∧
          t.pwmElem (3 * ic.toNat - 1) = v2 &&& 0x3FF#16 ∧
          ∀ i, i < 3 * ic.toNat - 3 ∨ 3 * ic.toNat - 1 < i → t.pwmElem i = s.pwmElem i) ∧
        (s.params.pwmLen < 3 * ic.toNat → ∃ d, exec (.setIntensityForIC ic v0 v1 v2) s =
            .fault (.arrayBounds .pwmmem (max s.params.pwmLen (3 * ic.toNat - 3)) s.dcmem d) ∧
          ∀ i, ({ s with pwmmem := d } : State).pwmElem i = if 3 * ic.toNat - 3 ≤ i ∧ i < s.params.pwmLen then
            byChannel i (v0 &&& 0x3FF#16) (v1 &&& 0x3FF#16) (v2 &&& 0x3FF#16) else s.pwmElem i)))

/-- SetDotCorrectionForAllICs as R111 gives it: slots 0 to `3N-1` take the operands' low 7 bits, channel by channel,
no slot beyond changes and nothing else does; on a shorter array it faults at the first index that is not
there, and the writes made before it stand in the arrays the fault records (log 19). -/
def Obligations.SetDotCorrectionForAllICsRule : Prop :=
  ∀ (s : State) (v0 v1 v2 : BitVec 16),
    encode (.setDotCorrectionForAllICs v0 v1 v2) = .command (0x3#4 ++ 0#12 ++ v2 ++ v1 ++ v0) ∧
    (s.configured = true →
      (3 * s.cfg.chainLength.toNat ≤ s.params.dcLen → ∃ t, exec (.setDotCorrectionForAllICs v0 v1 v2) s = .next t ∧
        t = { s with dcmem := t.dcmem } ∧
        (∀ n, 1 ≤ n → n ≤ s.cfg.chainLength.toNat →
          t.dcElem (3 * n - 3) = (v0 &&& 0x7F#16).setWidth 8 ∧
          t.dcElem (3 * n - 2) = (v1 &&& 0x7F#16).setWidth 8 ∧
          t.dcElem (3 * n - 1) = (v2 &&& 0x7F#16).setWidth 8) ∧
        ∀ i, 3 * s.cfg.chainLength.toNat ≤ i → t.dcElem i = s.dcElem i) ∧
      (s.params.dcLen < 3 * s.cfg.chainLength.toNat → ∃ d, exec (.setDotCorrectionForAllICs v0 v1 v2) s =
          .fault (.arrayBounds .dcmem s.params.dcLen d s.pwmmem) ∧
        ∀ i, ({ s with dcmem := d } : State).dcElem i = if i < s.params.dcLen then
            byChannel i ((v0 &&& 0x7F#16).setWidth 8) ((v1 &&& 0x7F#16).setWidth 8)
              ((v2 &&& 0x7F#16).setWidth 8)
          else s.dcElem i))

/-- SetIntensityForAllICs as R113 gives it: the same on PWMMEM with the low 10 bits; the fault records the arrays with
the writes made before it (log 19). -/
def Obligations.SetIntensityForAllICsRule : Prop :=
  ∀ (s : State) (v0 v1 v2 : BitVec 16),
    encode (.setIntensityForAllICs v0 v1 v2) = .command (0x5#4 ++ 0#12 ++ v2 ++ v1 ++ v0) ∧
    (s.configured = true →
      (3 * s.cfg.chainLength.toNat ≤ s.params.pwmLen → ∃ t, exec (.setIntensityForAllICs v0 v1 v2) s = .next t ∧
        t = { s with pwmmem := t.pwmmem } ∧
        (∀ n, 1 ≤ n → n ≤ s.cfg.chainLength.toNat →
          t.pwmElem (3 * n - 3) = v0 &&& 0x3FF#16 ∧
          t.pwmElem (3 * n - 2) = v1 &&& 0x3FF#16 ∧
          t.pwmElem (3 * n - 1) = v2 &&& 0x3FF#16) ∧
        ∀ i, 3 * s.cfg.chainLength.toNat ≤ i → t.pwmElem i = s.pwmElem i) ∧
      (s.params.pwmLen < 3 * s.cfg.chainLength.toNat → ∃ d, exec (.setIntensityForAllICs v0 v1 v2) s =
          .fault (.arrayBounds .pwmmem s.params.pwmLen s.dcmem d) ∧
        ∀ i, ({ s with pwmmem := d } : State).pwmElem i = if i < s.params.pwmLen then
          byChannel i (v0 &&& 0x3FF#16) (v1 &&& 0x3FF#16) (v2 &&& 0x3FF#16) else s.pwmElem i))

/-- Running any setter a second time with the same operands changes nothing more (R110, "idempotent"), when the
arrays are in canonical form. -/
def Obligations.SettersAreIdempotent : Prop :=
  ∀ (s t : State) (space : Space) (i : Instr), isSetterOf space i = true → s.dcmem.wf → s.pwmmem.wf →
    exec i s = .next t → exec i t = .next t

/-- The four setters neither read the array's old elements nor ENSTATE (R114): on two states that differ in those
alone, either both complete, both fault at the same index of the same array, or both are refused alike. Where both
complete, they leave the same state but for ENSTATE, which each leaves as it was, and the arrays; and each element is
either untouched in both or has the same value in both. -/
def Obligations.SettersDoNotReadWhatTheyWrite : Prop :=
  ∀ (s s' : State) (space : Space) (i : Instr), isSetterOf space i = true →
    s' = { s with enState := s'.enState, dcmem := s'.dcmem, pwmmem := s'.pwmmem } →
      (∀ t, exec i s = .next t → ∃ t', exec i s' = .next t' ∧ t.enState = s.enState ∧
        t' = { t with enState := s'.enState, dcmem := t'.dcmem, pwmmem := t'.pwmmem } ∧
        (∀ j, (t.dcElem j = s.dcElem j ∧ t'.dcElem j = s'.dcElem j) ∨ t'.dcElem j = t.dcElem j) ∧
        ∀ j, (t.pwmElem j = s.pwmElem j ∧ t'.pwmElem j = s'.pwmElem j) ∨ t'.pwmElem j = t.pwmElem j) ∧
      (∀ sp j d p, exec i s = .fault (.arrayBounds sp j d p) → ∃ d' p', exec i s' = .fault (.arrayBounds sp j d' p')) ∧
      ∀ r, exec i s = .refused r → exec i s' = .refused r

/-- Elements a setter has changed lie in the legal range of their kind (R114): at most 127, at most 1023. -/
def Obligations.SettersStoreLegalValues : Prop :=
  ∀ (s t : State) (space : Space) (i : Instr), isSetterOf space i = true → exec i s = .next t →
    (∀ j, t.dcElem j = s.dcElem j ∨ (t.dcElem j).toNat ≤ 127) ∧
    ∀ j, t.pwmElem j = s.pwmElem j ∨ (t.pwmElem j).toNat ≤ 1023

/-! Sends and packets -/

/-- SendDotCorrection as R150 gives it: it emits the packets of IC `N` down to IC 1, each
encoded from that IC's three slots and most significant byte first, then one latch pulse, and changes no array, no
configuration, no enable state and no enable line; on a short array it faults in its first iteration, and the
fault records the arrays as they were (log 19). -/
def Obligations.SendDotCorrectionRule : Prop :=
  ∀ s : State,
    encode .sendDotCorrection = .command 0x6000000000000000#64 ∧
    (s.configured = true →
      (3 * s.cfg.chainLength.toNat ≤ s.params.dcLen → ∃ t, exec .sendDotCorrection s = .next t ∧
        t.trace = s.trace ++
          ((List.range' 1 s.cfg.chainLength.toNat).reverse.flatMap fun n =>
            packetEvents (encodeDotCorrection (s.dcElem (3 * n - 3)) (s.dcElem (3 * n - 2)) (s.dcElem (3 * n - 1)))) ++
          [.writeLine .lat s.params.latchActive, .waitMicroseconds 2, .writeLine .lat (!s.params.latchActive),
            .waitMicroseconds 2] ∧
        (1 ≤ s.cfg.chainLength.toNat → t.pkt = encodeDotCorrection (s.dcElem 0) (s.dcElem 1) (s.dcElem 2)) ∧
        t.seq.phase = .idle ∧ t.lvl.en = s.lvl.en ∧
        t = { s with trace := t.trace, pkt := t.pkt, seq := t.seq, lvl := t.lvl, chain := t.chain, draws := t.draws }) ∧
      (s.params.dcLen < 3 * s.cfg.chainLength.toNat → exec .sendDotCorrection s =
        .fault (.arrayBounds .dcmem (max s.params.dcLen (3 * s.cfg.chainLength.toNat - 3)) s.dcmem s.pwmmem)))

/-- SendIntensity as R151 gives it: the same on PWMMEM with the intensity encoder; the arrays a fault records are
log 19. -/
def Obligations.SendIntensityRule : Prop :=
  ∀ s : State,
    encode .sendIntensity = .command 0x7000000000000000#64 ∧
    (s.configured = true →
      (3 * s.cfg.chainLength.toNat ≤ s.params.pwmLen → ∃ t, exec .sendIntensity s = .next t ∧
        t.trace = s.trace ++
          ((List.range' 1 s.cfg.chainLength.toNat).reverse.flatMap fun n =>
            packetEvents (encodeIntensity (s.pwmElem (3 * n - 3)) (s.pwmElem (3 * n - 2)) (s.pwmElem (3 * n - 1)))) ++
          [.writeLine .lat s.params.latchActive, .waitMicroseconds 2, .writeLine .lat (!s.params.latchActive),
            .waitMicroseconds 2] ∧
        (1 ≤ s.cfg.chainLength.toNat → t.pkt = encodeIntensity (s.pwmElem 0) (s.pwmElem 1) (s.pwmElem 2)) ∧
        t.seq.phase = .idle ∧ t.lvl.en = s.lvl.en ∧
        t = { s with trace := t.trace, pkt := t.pkt, seq := t.seq, lvl := t.lvl, chain := t.chain, draws := t.draws }) ∧
      (s.params.pwmLen < 3 * s.cfg.chainLength.toNat → exec .sendIntensity s =
        .fault (.arrayBounds .pwmmem (max s.params.pwmLen (3 * s.cfg.chainLength.toNat - 3)) s.dcmem s.pwmmem)))

/-- The wire packets complete in every configured state: PKT holds the packet, which is the instruction's own
encoding, its four bytes go out most significant first, and nothing but the link changes (R130, R131, R152). That
a packet can be stepped alone is the model's choice (log 10). -/
def Obligations.WirePacketsGoOut : Prop :=
  (∀ (s : State) (c0 c1 c2 : BitVec 7), s.configured = true → ∃ t, exec (.wireDC c0 c1 c2) s = .next t ∧
    encode (.wireDC c0 c1 c2) = .packet t.pkt ∧ t.pkt = encodeDotCorrection c0 c1 c2 ∧
    t.trace = s.trace ++ packetEvents t.pkt ∧ t.lvl = { s.lvl with clk := false, dat := c0.getLsbD 0 } ∧
    t = { s with trace := t.trace, pkt := t.pkt, lvl := t.lvl, chain := t.chain, draws := t.draws }) ∧
  ∀ (s : State) (c0 c1 c2 : BitVec 10), s.configured = true → ∃ t, exec (.wirePWM c0 c1 c2) s = .next t ∧
    encode (.wirePWM c0 c1 c2) = .packet t.pkt ∧ t.pkt = encodeIntensity c0 c1 c2 ∧
    t.trace = s.trace ++ packetEvents t.pkt ∧ t.lvl = { s.lvl with clk := false, dat := c0.getLsbD 0 } ∧
    t = { s with trace := t.trace, pkt := t.pkt, lvl := t.lvl, chain := t.chain, draws := t.draws }

/-- The event count of a Send (R155): `4N` byte transfers, then exactly one latch pulse, `4N + 4` events; at the
pin level `96N + 2` line writes. -/
def Obligations.SendEventCount : Prop :=
  ∀ (space : Space) (s t : State), exec (sendOf space) s = .next t →
    ∃ bs : List Byte, bs.length = 4 * s.cfg.chainLength.toNat ∧
      t.trace = s.trace ++ bs.map .shiftOutByte ++
        [.writeLine .lat s.params.latchActive, .waitMicroseconds 2, .writeLine .lat (!s.params.latchActive),
          .waitMicroseconds 2] ∧
      t.trace.length = s.trace.length + (4 * s.cfg.chainLength.toNat + 4) ∧
      ((t.trace.drop s.trace.length).flatMap Event.pins).length = 96 * s.cfg.chainLength.toNat + 2

/-- The bits of a packet on the data line are `P[31]` down to `P[0]` (R54, R55); a byte is 24 line writes, data
before each clock pulse, and leaves the clock low and the data line at bit 0 (R68). -/
def Obligations.PacketBitsMostSignificantFirst : Prop :=
  (∀ p : Packet,
    (((packetEvents p).flatMap Event.pins).filter fun w => w.1 = .dat) =
      (List.range 32).map fun k => (Line.dat, p.getLsbD (31 - k))) ∧
  ∀ (b : Byte) (s : State),
    (Event.shiftOutByte b).pins =
      ((List.range 8).flatMap fun k => [(Line.dat, b.getLsbD (7 - k)), (.clk, true), (.clk, false)]) ∧
    (shiftOutByte b s).lvl = { s.lvl with clk := false, dat := b.getLsbD 0 }

/-- What a Send leaves on the lines and in PKT (R158): clock low, latch at rest, enable as it was, the data line at
bit 0 of element 0, and PKT holding IC 1's packet. -/
def Obligations.SendLeavesLinesAtRest : Prop :=
  ∀ (space : Space) (s t : State), 1 ≤ s.cfg.chainLength.toNat → exec (sendOf space) s = .next t →
    t.pkt = packetAt space s 1 ∧
    t.lvl = { clk := false, en := s.lvl.en, lat := !s.params.latchActive,
              dat := match space with
                | .dcmem => (s.dcElem 0).getLsbD 0
                | .pwmmem => (s.pwmElem 0).getLsbD 0 }

/-- End to end, dot-correction (R159, through the informative receiver of R66, log 6): on a physical chain of exactly
`N` ICs, none of which has refused a window, with the lines at rest, SendDotCorrection leaves in IC `n` the masked
values of its three slots and clock mode `00`, its intensity registers as they were, and no refusal. The clock-mode
clause is the model's reading of R239 (log 9), the refusal its reading of U5 (log 8). -/
def Obligations.SendDotCorrectionReachesTheChain : Prop :=
  ∀ (s t : State), s.chain.length = s.cfg.chainLength.toNat → (∀ ic ∈ s.chain, ic.refused = none) →
    s.lvl.clk = false → s.lvl.lat = !s.params.latchActive → exec .sendDotCorrection s = .next t →
      t.chain.length = s.chain.length ∧
      ∀ (m : Nat) (ic ic' : ChainIC), s.chain[m]? = some ic → t.chain[m]? = some ic' →
        ic'.dc0 = (s.dcElem (3 * m)).setWidth 7 ∧ ic'.dc1 = (s.dcElem (3 * m + 1)).setWidth 7 ∧
        ic'.dc2 = (s.dcElem (3 * m + 2)).setWidth 7 ∧ ic'.clockMode = 0 ∧
        ic'.pwm0 = ic.pwm0 ∧ ic'.pwm1 = ic.pwm1 ∧ ic'.pwm2 = ic.pwm2 ∧ ic'.refused = none

/-- End to end, intensity (R159, through the informative receiver of R66, log 6). That the clock-mode register stays is
the model's reading of which latch loads it (log 9), the refusal its reading of U5 (log 8). -/
def Obligations.SendIntensityReachesTheChain : Prop :=
  ∀ (s t : State), s.chain.length = s.cfg.chainLength.toNat → (∀ ic ∈ s.chain, ic.refused = none) →
    s.lvl.clk = false → s.lvl.lat = !s.params.latchActive → exec .sendIntensity s = .next t →
      t.chain.length = s.chain.length ∧
      ∀ (m : Nat) (ic ic' : ChainIC), s.chain[m]? = some ic → t.chain[m]? = some ic' →
        ic'.pwm0 = (s.pwmElem (3 * m)).setWidth 10 ∧ ic'.pwm1 = (s.pwmElem (3 * m + 1)).setWidth 10 ∧
        ic'.pwm2 = (s.pwmElem (3 * m + 2)).setWidth 10 ∧
        ic'.dc0 = ic.dc0 ∧ ic'.dc1 = ic.dc1 ∧ ic'.dc2 = ic.dc2 ∧ ic'.clockMode = ic.clockMode ∧ ic'.refused = none

/-- The latch edge (R66, R83, R84): every IC takes its window's values by the window's address, and a window that is
no packet of the block (address `10` or `11`, or a reserved or clock-mode bit set) is refused and recorded. That a
refusal is recorded at the IC, and not the end of the run, is the model's reading of U5 (log 8); what the clock-mode
register takes is log 9. -/
def Obligations.LatchLoadsOrRefuses : Prop :=
  ∀ (s : State), s.lvl.lat = (!s.params.latchActive) →
    (writeLine .lat s.params.latchActive s).chain.length = s.chain.length ∧
    ∀ (m : Nat) (ic ic' : ChainIC), s.chain[m]? = some ic →
      (writeLine .lat s.params.latchActive s).chain[m]? = some ic' → ic'.sr = ic.sr ∧
        (ic.refused = none →
          (∀ c0 c1 c2, decode (.packet ic.sr) = .instr (.wireDC c0 c1 c2) →
            ic' = { ic with dc0 := c0, dc1 := c1, dc2 := c2, clockMode := 0 }) ∧
          (∀ c0 c1 c2, decode (.packet ic.sr) = .instr (.wirePWM c0 c1 c2) →
            ic' = { ic with pwm0 := c0, pwm1 := c1, pwm2 := c2 }) ∧
          (decode (.packet ic.sr) = .stray ic.sr → ic'.refused = some ic.sr)) ∧
        (ic.refused ≠ none → ic'.refused = ic.refused)

/-- The block never has a window refused (R83, R84): on a physical chain of exactly `N` ICs, none of which has
refused a window, with clock and latch at rest, no instruction of a configured block makes one refuse. -/
def Obligations.MatchedChainRefusesNothing : Prop :=
  ∀ (s t : State) (i : Instr), s.configured = true → s.chain.length = s.cfg.chainLength.toNat →
    (∀ ic ∈ s.chain, ic.refused = none) → s.lvl.clk = false → s.lvl.lat = (!s.params.latchActive) →
    exec i s = .next t →
      t.chain.length = t.cfg.chainLength.toNat ∧ (∀ ic ∈ t.chain, ic.refused = none) ∧ t.lvl.clk = false ∧
        t.lvl.lat = !t.params.latchActive

/-- A Send taken as one step is its walk of `5N + 4` micro-steps (R154, decision D15), faults included. The counters
it ends with, and which array it reads, are the model's (log 13). -/
def Obligations.SendIsItsMicroSteps : Prop :=
  ∀ (space : Space) (s : State), s.configured = true → 1 ≤ s.cfg.chainLength.toNat →
    microSteps (5 * s.cfg.chainLength.toNat + 4) (beginSend space s) = exec (sendOf space) s

/-- The SHIFT micro-step is eight bit steps of the pin-level walk (R68, R154). -/
def Obligations.ShiftMicroStepIsEightBitSteps : Prop :=
  ∀ s : State, s.seq.phase = .shift → s.seq.bit = 7 → microStep s = .next (Nat.iterate bitStep 8 s)

/-- A second Send with the array unchanged emits the same events again (R59, R150), and on a chain of exactly `N`
ICs, none of which has refused a window (log 8), with the lines at rest leaves it as the first did. -/
def Obligations.RepeatedSendSendsTheSame : Prop :=
  ∀ (space : Space) (s t : State), exec (sendOf space) s = .next t →
    ∃ u es, exec (sendOf space) t = .next u ∧ t.trace = s.trace ++ es ∧ u.trace = t.trace ++ es ∧
      (1 ≤ s.cfg.chainLength.toNat → s.chain.length = s.cfg.chainLength.toNat →
        (∀ ic ∈ s.chain, ic.refused = none) → s.lvl.clk = false → s.lvl.lat = (!s.params.latchActive) →
          u.chain = t.chain)

/-- A broadcast setter followed by the Send of its kind (R111, R150): every IC is sent the same packet, built from
the operands' low bits. -/
def Obligations.BroadcastThenSendSendsOnePacketToAll : Prop :=
  ∀ (s : State) (v0 v1 v2 : BitVec 16), s.configured = true → s.ArraysFit →
    (∃ t u, exec (.setDotCorrectionForAllICs v0 v1 v2) s = .next t ∧ exec .sendDotCorrection t = .next u ∧
      u.trace = s.trace ++
        (List.replicate s.cfg.chainLength.toNat (packetEvents (encodeDotCorrection v0 v1 v2))).flatten ++
        latchEvents s.params) ∧
    ∃ t u, exec (.setIntensityForAllICs v0 v1 v2) s = .next t ∧ exec .sendIntensity t = .next u ∧
      u.trace = s.trace ++
        (List.replicate s.cfg.chainLength.toNat (packetEvents (encodeIntensity v0 v1 v2))).flatten ++
        latchEvents s.params

/-! Enable, configuration, Nop -/

/-- SetEnabled as R180 gives it: exactly one WriteLine on the enable line, to the active level when enabling and to
the inactive level when disabling, and ENSTATE; nothing else changes. After enabling every IC of the chain shows its
registers, after disabling none does (R66). -/
def Obligations.SetEnabledRule : Prop :=
  ∀ (s : State) (enabled : Bool),
    encode (.setEnabled enabled) = .command (0x8#4 ++ 0#59 ++ BitVec.ofBool enabled) ∧
    (s.configured = true → ∃ t, exec (.setEnabled enabled) s = .next t ∧
      t = { s with
        trace := s.trace ++ [.writeLine .en (if enabled then s.params.enableActive else !s.params.enableActive)]
        lvl := { s.lvl with en := if enabled then s.params.enableActive else !s.params.enableActive }
        enState := if enabled then .enabled else .disabled } ∧
      t.visible = s.chain.map fun ic => if enabled then some ic else none)

/-- The enable state machine (R183): SetEnabled sets ENSTATE to its operand, the first Configure sets Disabled, and
every other instruction, a second Configure included (decision D13), leaves ENSTATE and the enable line alone and
emits no event on it. -/
def Obligations.OnlySetEnabledEnables : Prop :=
  ∀ (s t : State) (i : Instr), exec i s = .next t →
    match i with
    | .setEnabled enabled => t.enState = if enabled then .enabled else .disabled
    | .configure _ _ _ _ _ =>
      (s.configured = false → t.enState = .disabled) ∧
      (s.configured = true → t.enState = s.enState ∧ t.lvl.en = s.lvl.en ∧
        ∃ es, t.trace = s.trace ++ es ∧ ∀ l, Event.writeLine .en l ∉ es)
    | _ => t.enState = s.enState ∧ t.lvl.en = s.lvl.en ∧
        ∃ es, t.trace = s.trace ++ es ∧ ∀ l, Event.writeLine .en l ∉ es

/-- The first Configure (R181; the four line writes are decision D11, ICs = 0 is C1 and D5, distinct identifiers
D20): the clamped count, the four identifiers, Disabled, four line writes, CONFIGURED; arrays and chain as they
were. -/
def Obligations.ConfigureConstructs : Prop :=
  ∀ (s : State) (ics clk en lat dat : BitVec 8), s.configured = false → idsDistinct clk en lat dat = true →
    exec (.configure ics clk en lat dat) s = .next { s with
      configured := true
      cfg := { chainLength := if 1 ≤ ics.toNat ∧ ics.toNat ≤ 250 then ics else 250, clk := clk, en := en, lat := lat,
               dat := dat }
      enState := .disabled
      lvl := { clk := false, en := !s.params.enableActive, lat := !s.params.latchActive, dat := false }
      trace := s.trace ++ [.writeLine .clk false, .writeLine .en (!s.params.enableActive),
        .writeLine .lat (!s.params.latchActive), .writeLine .dat false] }

/-- A second Configure changes nothing (decision D13), and colliding identifiers are refused, configured or not
(R22, R202, decision D20; the order for a configured block is R204's, log 17). -/
def Obligations.ConfigureIsWriteOnce : Prop :=
  ∀ (s : State) (ics clk en lat dat : BitVec 8),
    (idsDistinct clk en lat dat = true → s.configured = true → exec (.configure ics clk en lat dat) s = .next s) ∧
    (idsDistinct clk en lat dat = false →
      exec (.configure ics clk en lat dat) s = .refused (.lineIdCollision clk en lat dat))

/-- Nop and the reserved opcodes change nothing, configured or not (R182, decision D3). -/
def Obligations.NopAndReservedOpcodesDoNothing : Prop :=
  (∀ s : State, exec .nop s = .next s) ∧
  ∀ (s : State) (w : CommandWord) (rest : List Input), s.seq.phase = .idle → s.port = .command w :: rest →
    9 ≤ w.toNat / 2 ^ 60 → step s = .next { s with port := rest }

/-- Before Configure every instruction but Nop and Configure is refused by name (R23, R202; decision D13). -/
def Obligations.UnconfiguredBlockRefuses : Prop :=
  ∀ (s : State) (i : Instr), s.configured = false → i ≠ .nop → (∀ a b c d e, i ≠ .configure a b c d e) →
    exec i s = .refused (.unconfigured i)

/-- Priority (R204): the refusals come before anything else; the range check comes before any access, so an
out-of-range request on a short array does not fault; a broadcast setter faults at the first offending index, a Send
in its first iteration. That equal identifiers are refused on a configured block too is the model's reading of R204
(log 17); what arrays a fault records is log 19. -/
def Obligations.PriorityOfConditions : Prop :=
  ∀ s : State,
    (∀ ics clk en lat dat, idsDistinct clk en lat dat = false →
      exec (.configure ics clk en lat dat) s = .refused (.lineIdCollision clk en lat dat)) ∧
    (s.configured = false → ∀ space i, isSetterOf space i = true ∨ i = sendOf space →
      exec i s = .refused (.unconfigured i)) ∧
    (s.configured = true →
      (∀ ic v0 v1 v2, ic.toNat = 0 ∨ s.cfg.chainLength.toNat < ic.toNat →
        exec (.setDotCorrectionForIC ic v0 v1 v2) s = .next s ∧ exec (.setIntensityForIC ic v0 v1 v2) s = .next s) ∧
      (s.params.dcLen < 3 * s.cfg.chainLength.toNat →
        (∀ v0 v1 v2, ∃ d, exec (.setDotCorrectionForAllICs v0 v1 v2) s =
          .fault (.arrayBounds .dcmem s.params.dcLen d s.pwmmem)) ∧
        ∃ k < 3, exec .sendDotCorrection s =
          .fault (.arrayBounds .dcmem (3 * s.cfg.chainLength.toNat - 3 + k) s.dcmem s.pwmmem)) ∧
      (s.params.pwmLen < 3 * s.cfg.chainLength.toNat →
        (∀ v0 v1 v2, ∃ d, exec (.setIntensityForAllICs v0 v1 v2) s =
          .fault (.arrayBounds .pwmmem s.params.pwmLen s.dcmem d)) ∧
        ∃ k < 3, exec .sendIntensity s =
          .fault (.arrayBounds .pwmmem (3 * s.cfg.chainLength.toNat - 3 + k) s.dcmem s.pwmmem)))

/-! The whole machine -/

/-- What the spec gives for reset (R34, R230): unconfigured, Disabled, sequencer idle, nothing emitted. -/
def Obligations.ResetLeavesTheBlockUnconfigured : Prop :=
  State.reset.configured = false ∧ State.reset.enState = .disabled ∧ State.reset.seq.phase = .idle ∧
    State.reset.trace = []

/-- The invariant holds at reset. -/
def Obligations.ResetMeetsTheInvariant : Prop := State.reset.Inv

/-- Every step keeps the invariant: idle sequencer (R27), chain length in 1 to 250 (R21), distinct identifiers
(R22), enable line and ENSTATE in agreement (R183), lines at rest (R153), canonical arrays within bounds (R52). -/
def Obligations.StepKeepsTheInvariant : Prop := ∀ s t : State, s.Inv → step s = .next t → t.Inv

/-- When the input at the head of the port decodes to an instruction, and no Send is in progress, a step takes it
off the port and runs it (R60, R64). -/
def Obligations.StepRunsTheDecodedInstruction : Prop :=
  ∀ (s : State) (c : Code) (i : Instr) (rest : List Input), s.seq.phase = .idle → s.port = inputOf c :: rest →
    decode c = .instr i → step s = exec i { s with port := rest }

/-- An opcode-table word placed at the port is what the next step runs, and the port is then as it was (log 11). -/
def Obligations.FetchedTableWordRuns : Prop :=
  ∀ (s : State) (nbits w : Nat) (i : Instr), decodeTableWord nbits w = some i →
    step (s.withFetchWord nbits w) = exec i { s with seq := { s.seq with phase := .idle } }

/-- A word on the link that is no packet of the block is refused by name when a step meets it at the head of the port,
configured or not: the spec gives it no meaning (R83, R84, U5), and that it can stand there at all is the model's
choice (log 10). -/
def Obligations.StrayPacketWordsAreRefused : Prop :=
  ∀ (s : State) (p : Packet) (rest : List Input), s.seq.phase = .idle → s.port = .packet p :: rest →
    ¬ p &&& 0xF80E0380#32 = 0x40000000#32 → ¬ p.extractLsb' 30 2 = 0#2 → step s = .refused (.strayPacket p)

/-- With no pending input an idle block waits (R34). While a Send is in progress a step is its next micro-step: no
input is taken, and arrays, configuration and enable state stay (R157, R158). States between micro-steps are the
model's form of the walk and arise in no run from reset (log 13). -/
def Obligations.StepWaitsOrAdvancesTheSend : Prop :=
  (∀ s : State, s.seq.phase = .idle → s.port = [] → step s = .next s) ∧
  ∀ s : State, s.seq.phase ≠ .idle → step s = microStep s ∧
    ∀ t, step s = .next t →
      t.seq ≠ s.seq ∧ t.port = s.port ∧ t.dcmem = s.dcmem ∧ t.pwmmem = s.pwmmem ∧ t.cfg = s.cfg ∧
        t.configured = s.configured ∧ t.enState = s.enState ∧ t.lvl.en = s.lvl.en

/-- A direct host write between commands sets one element of one array and nothing else, whether or not the block
is configured (R31, R36, R52); beyond the array it faults, recording both arrays (the model's choice, logs 19 and
20). -/
def Obligations.HostWritesOneElement : Prop :=
  (∀ (s : State) (i : Nat) (v : BitVec 8) (rest : List Input), s.seq.phase = .idle → s.port = .writeDC i v :: rest →
    (i < s.params.dcLen → ∃ t, step s = .next t ∧ t = { s with port := rest, dcmem := t.dcmem } ∧
      t.dcElem i = v ∧ ∀ j, j ≠ i → t.dcElem j = s.dcElem j) ∧
    (s.params.dcLen ≤ i → step s = .fault (.arrayBounds .dcmem i s.dcmem s.pwmmem))) ∧
  ∀ (s : State) (i : Nat) (v : BitVec 16) (rest : List Input), s.seq.phase = .idle → s.port = .writePWM i v :: rest →
    (i < s.params.pwmLen → ∃ t, step s = .next t ∧ t = { s with port := rest, pwmmem := t.pwmmem } ∧
      t.pwmElem i = v ∧ ∀ j, j ≠ i → t.pwmElem j = s.pwmElem j) ∧
    (s.params.pwmLen ≤ i → step s = .fault (.arrayBounds .pwmmem i s.dcmem s.pwmmem))

/-- A reset of the controller does not reset the chain, a power cycle of the chain does not reset the controller
(R230, R231). That the chain hears no edge at a reset, and that the parameters and the remaining inputs stay, is the
model's choice (log 18). -/
def Obligations.ResetsAreIndependent : Prop :=
  (∀ (s : State) (rest : List Input), s.seq.phase = .idle → s.port = .reset :: rest →
    ∃ t, step s = .next t ∧ t.configured = false ∧ t.enState = .disabled ∧ t.seq.phase = .idle ∧ t.trace = [] ∧
      t.chain = s.chain ∧ t.params = s.params ∧ t.port = rest) ∧
  ∀ (s : State) (rest : List Input), s.seq.phase = .idle → s.port = .resetChain :: rest →
    ∃ t, step s = .next t ∧ t = { s with port := rest, chain := t.chain, draws := t.draws } ∧
      t.chain.length = s.chain.length

/-- The configuration is "created once, immutable afterward" (R21, R22): once configured, no step but a reset
changes it, and no step at all changes the parameters. -/
def Obligations.ConfigurationIsImmutable : Prop :=
  ∀ s t : State, step s = .next t →
    t.params = s.params ∧
    (s.configured = true → s.port.head? ≠ some .reset → t.configured = true ∧ t.cfg = s.cfg)

/-- With arrays as long as the caller owes (R52, R237), every well-formed instruction of a configured block
completes: no operand, array content or line state stops it (R200). -/
def Obligations.EveryInstructionCompletes : Prop :=
  ∀ (s : State) (i : Instr), s.configured = true → s.ArraysFit → i.wellFormed = true → ∃ t, exec i s = .next t

/-- The only fault is an access at an index not below the array's length, by an index the block uses, and it can
occur only when that array is shorter than `3 * CFG.chainLength` (R52, R202); only a setter of an array's kind has
changed it by then (U1, log 19). -/
def Obligations.OnlyShortArraysFault : Prop :=
  ∀ (s : State) (i : Instr) (f : Fault), exec i s = .fault f →
    ∃ space j d p, f = .arrayBounds space j d p ∧ s.params.len space ≤ j ∧ j < 3 * s.cfg.chainLength.toNat ∧
      (isSetterOf .dcmem i = false → d = s.dcmem) ∧ (isSetterOf .pwmmem i = false → p = s.pwmmem)

/-- What the block does depends on its configuration, parameters, arrays and operands alone: on two states that
agree on those, every instruction emits the same events and leaves the same arrays and configuration, whatever the
line levels, PKT, SEQ, ENSTATE, trace and chain hold (R24, R26, R33, R34, R156). In particular no outcome depends on
the values the model names for registers the spec leaves unspecified at reset (log 3, log 4). -/
def Obligations.BlockReadsOnlyConfigurationAndArrays : Prop :=
  ∀ (s s' : State) (i : Instr), SameToTheBlock s s' → SameOutcome s s' (exec i s) (exec i s')

/-- Before Configure no outcome of an instruction depends on what CFG holds (R34): Configure overwrites it, Nop
ignores it, every other instruction is refused (log 2). -/
def Obligations.UnsetConfigurationIsNotRead : Prop :=
  ∀ (s : State) (c : Cfg) (i : Instr), s.configured = false →
    match exec i s, exec i { s with cfg := c } with
    | .next t, .next t' => t' = { t with cfg := t'.cfg } ∧ (t.configured = true → t'.cfg = t.cfg)
    | .refused r, .refused r' => r = r'
    | _, _ => False

/-- The trace only grows, and the line levels and the chain are what its pin-level view makes of them (R25, R33,
R60, R66). -/
def Obligations.TraceExplainsTheLines : Prop :=
  ∀ (s t : State) (i : Instr), exec i s = .next t →
    ∃ es, t.trace = s.trace ++ es ∧
      t.lvl = (es.flatMap Event.pins).foldl (fun l p => l.set p.1 p.2) s.lvl ∧
      t.chain = (drivePins (es.flatMap Event.pins) s).chain ∧ t.draws = (drivePins (es.flatMap Event.pins) s).draws

/-- Only the setters of an array's kind change it (R36, R37, R158). -/
def Obligations.ArraysAreSeparate : Prop :=
  ∀ (s t : State) (i : Instr), exec i s = .next t →
    (isSetterOf .dcmem i = false → t.dcmem = s.dcmem) ∧ (isSetterOf .pwmmem i = false → t.pwmmem = s.pwmmem)
end

