-- ==== Sys2Proof/Laws/State.lean ====
section
/-! SUPPORT. The field lemmas of State: for each shared operation that moves the link, one lemma per field it
leaves alone, and its effect on the trace. An operation of the link changes `trace`, `lvl`, `chain` and `draws`
only; `transmitPacket` changes `pkt` besides. -/

namespace Sys2Proof.Machine

/-! `withSeq` and `withPkt`. -/

@[simp] theorem withSeq_configured (q : Seq) (s : State) : (withSeq q s).configured = s.configured := rfl

@[simp] theorem withSeq_cfg (q : Seq) (s : State) : (withSeq q s).cfg = s.cfg := rfl

@[simp] theorem withSeq_enState (q : Seq) (s : State) : (withSeq q s).enState = s.enState := rfl

@[simp] theorem withSeq_lvl (q : Seq) (s : State) : (withSeq q s).lvl = s.lvl := rfl

@[simp] theorem withSeq_pkt (q : Seq) (s : State) : (withSeq q s).pkt = s.pkt := rfl

@[simp] theorem withSeq_seq (q : Seq) (s : State) : (withSeq q s).seq = q := rfl

@[simp] theorem withSeq_dcmem (q : Seq) (s : State) : (withSeq q s).dcmem = s.dcmem := rfl

@[simp] theorem withSeq_pwmmem (q : Seq) (s : State) : (withSeq q s).pwmmem = s.pwmmem := rfl

@[simp] theorem withSeq_trace (q : Seq) (s : State) : (withSeq q s).trace = s.trace := rfl

@[simp] theorem withSeq_params (q : Seq) (s : State) : (withSeq q s).params = s.params := rfl

@[simp] theorem withSeq_chain (q : Seq) (s : State) : (withSeq q s).chain = s.chain := rfl

@[simp] theorem withSeq_arrayDraw (q : Seq) (s : State) : (withSeq q s).arrayDraw = s.arrayDraw := rfl

@[simp] theorem withSeq_draws (q : Seq) (s : State) : (withSeq q s).draws = s.draws := rfl

@[simp] theorem withSeq_port (q : Seq) (s : State) : (withSeq q s).port = s.port := rfl

@[simp] theorem withPkt_configured (q : Packet) (s : State) : (withPkt q s).configured = s.configured := rfl

@[simp] theorem withPkt_cfg (q : Packet) (s : State) : (withPkt q s).cfg = s.cfg := rfl

@[simp] theorem withPkt_enState (q : Packet) (s : State) : (withPkt q s).enState = s.enState := rfl

@[simp] theorem withPkt_lvl (q : Packet) (s : State) : (withPkt q s).lvl = s.lvl := rfl

@[simp] theorem withPkt_pkt (q : Packet) (s : State) : (withPkt q s).pkt = q := rfl

@[simp] theorem withPkt_seq (q : Packet) (s : State) : (withPkt q s).seq = s.seq := rfl

@[simp] theorem withPkt_dcmem (q : Packet) (s : State) : (withPkt q s).dcmem = s.dcmem := rfl

@[simp] theorem withPkt_pwmmem (q : Packet) (s : State) : (withPkt q s).pwmmem = s.pwmmem := rfl

@[simp] theorem withPkt_trace (q : Packet) (s : State) : (withPkt q s).trace = s.trace := rfl

@[simp] theorem withPkt_params (q : Packet) (s : State) : (withPkt q s).params = s.params := rfl

@[simp] theorem withPkt_chain (q : Packet) (s : State) : (withPkt q s).chain = s.chain := rfl

@[simp] theorem withPkt_arrayDraw (q : Packet) (s : State) : (withPkt q s).arrayDraw = s.arrayDraw := rfl

@[simp] theorem withPkt_draws (q : Packet) (s : State) : (withPkt q s).draws = s.draws := rfl

@[simp] theorem withPkt_port (q : Packet) (s : State) : (withPkt q s).port = s.port := rfl

@[simp] theorem withSeq_withSeq (q q' : Seq) (s : State) : withSeq q (withSeq q' s) = withSeq q s := rfl

/-! `hear`: only the chain and the draw counter move. -/

@[simp] theorem hear_configured (l : Line) (v : Level) (s : State) : (hear l v s).configured = s.configured := by
  unfold hear; split <;> (try split) <;> rfl

@[simp] theorem hear_cfg (l : Line) (v : Level) (s : State) : (hear l v s).cfg = s.cfg := by
  unfold hear; split <;> (try split) <;> rfl

@[simp] theorem hear_enState (l : Line) (v : Level) (s : State) : (hear l v s).enState = s.enState := by
  unfold hear; split <;> (try split) <;> rfl

@[simp] theorem hear_pkt (l : Line) (v : Level) (s : State) : (hear l v s).pkt = s.pkt := by
  unfold hear; split <;> (try split) <;> rfl

@[simp] theorem hear_seq (l : Line) (v : Level) (s : State) : (hear l v s).seq = s.seq := by
  unfold hear; split <;> (try split) <;> rfl

@[simp] theorem hear_dcmem (l : Line) (v : Level) (s : State) : (hear l v s).dcmem = s.dcmem := by
  unfold hear; split <;> (try split) <;> rfl

@[simp] theorem hear_pwmmem (l : Line) (v : Level) (s : State) : (hear l v s).pwmmem = s.pwmmem := by
  unfold hear; split <;> (try split) <;> rfl

@[simp] theorem hear_params (l : Line) (v : Level) (s : State) : (hear l v s).params = s.params := by
  unfold hear; split <;> (try split) <;> rfl

@[simp] theorem hear_arrayDraw (l : Line) (v : Level) (s : State) : (hear l v s).arrayDraw = s.arrayDraw := by
  unfold hear; split <;> (try split) <;> rfl

@[simp] theorem hear_port (l : Line) (v : Level) (s : State) : (hear l v s).port = s.port := by
  unfold hear; split <;> (try split) <;> rfl

@[simp] theorem hear_lvl (l : Line) (v : Level) (s : State) : (hear l v s).lvl = s.lvl := by
  unfold hear; split <;> (try split) <;> rfl

@[simp] theorem hear_trace (l : Line) (v : Level) (s : State) : (hear l v s).trace = s.trace := by
  unfold hear; split <;> (try split) <;> rfl

/-! `driveLine`: one line. -/

@[simp] theorem driveLine_configured (l : Line) (v : Level) (s : State) : (driveLine l v s).configured = s.configured := by
  simp [driveLine]

@[simp] theorem driveLine_cfg (l : Line) (v : Level) (s : State) : (driveLine l v s).cfg = s.cfg := by
  simp [driveLine]

@[simp] theorem driveLine_enState (l : Line) (v : Level) (s : State) : (driveLine l v s).enState = s.enState := by
  simp [driveLine]

@[simp] theorem driveLine_pkt (l : Line) (v : Level) (s : State) : (driveLine l v s).pkt = s.pkt := by
  simp [driveLine]

@[simp] theorem driveLine_seq (l : Line) (v : Level) (s : State) : (driveLine l v s).seq = s.seq := by
  simp [driveLine]

@[simp] theorem driveLine_dcmem (l : Line) (v : Level) (s : State) : (driveLine l v s).dcmem = s.dcmem := by
  simp [driveLine]

@[simp] theorem driveLine_pwmmem (l : Line) (v : Level) (s : State) : (driveLine l v s).pwmmem = s.pwmmem := by
  simp [driveLine]

@[simp] theorem driveLine_params (l : Line) (v : Level) (s : State) : (driveLine l v s).params = s.params := by
  simp [driveLine]

@[simp] theorem driveLine_arrayDraw (l : Line) (v : Level) (s : State) : (driveLine l v s).arrayDraw = s.arrayDraw := by
  simp [driveLine]

@[simp] theorem driveLine_port (l : Line) (v : Level) (s : State) : (driveLine l v s).port = s.port := by
  simp [driveLine]

@[simp] theorem driveLine_trace (l : Line) (v : Level) (s : State) : (driveLine l v s).trace = s.trace := by
  simp [driveLine]

@[simp] theorem driveLine_lvl (l : Line) (v : Level) (s : State) : (driveLine l v s).lvl = s.lvl.set l v := rfl

@[simp] theorem driveLine_chain (l : Line) (v : Level) (s : State) : (driveLine l v s).chain = (hear l v s).chain := rfl

@[simp] theorem driveLine_draws (l : Line) (v : Level) (s : State) : (driveLine l v s).draws = (hear l v s).draws := rfl

/-! `drivePins`: a list of line writes. -/

@[simp] theorem drivePins_nil (s : State) : drivePins [] s = s := rfl

@[simp] theorem drivePins_cons (p : Line × Level) (ps : List (Line × Level)) (s : State) :
    drivePins (p :: ps) s = drivePins ps (driveLine p.1 p.2 s) := rfl

theorem drivePins_append (ps qs : List (Line × Level)) (s : State) :
    drivePins (ps ++ qs) s = drivePins qs (drivePins ps s) := List.foldl_append

@[simp] theorem drivePins_configured (ps : List (Line × Level)) (s : State) : (drivePins ps s).configured = s.configured := by
  induction ps generalizing s with
  | nil => rfl
  | cons p ps ih => simp [ih]

@[simp] theorem drivePins_cfg (ps : List (Line × Level)) (s : State) : (drivePins ps s).cfg = s.cfg := by
  induction ps generalizing s with
  | nil => rfl
  | cons p ps ih => simp [ih]

@[simp] theorem drivePins_enState (ps : List (Line × Level)) (s : State) : (drivePins ps s).enState = s.enState := by
  induction ps generalizing s with
  | nil => rfl
  | cons p ps ih => simp [ih]

@[simp] theorem drivePins_pkt (ps : List (Line × Level)) (s : State) : (drivePins ps s).pkt = s.pkt := by
  induction ps generalizing s with
  | nil => rfl
  | cons p ps ih => simp [ih]

@[simp] theorem drivePins_seq (ps : List (Line × Level)) (s : State) : (drivePins ps s).seq = s.seq := by
  induction ps generalizing s with
  | nil => rfl
  | cons p ps ih => simp [ih]

@[simp] theorem drivePins_dcmem (ps : List (Line × Level)) (s : State) : (drivePins ps s).dcmem = s.dcmem := by
  induction ps generalizing s with
  | nil => rfl
  | cons p ps ih => simp [ih]

@[simp] theorem drivePins_pwmmem (ps : List (Line × Level)) (s : State) : (drivePins ps s).pwmmem = s.pwmmem := by
  induction ps generalizing s with
  | nil => rfl
  | cons p ps ih => simp [ih]

@[simp] theorem drivePins_params (ps : List (Line × Level)) (s : State) : (drivePins ps s).params = s.params := by
  induction ps generalizing s with
  | nil => rfl
  | cons p ps ih => simp [ih]

@[simp] theorem drivePins_arrayDraw (ps : List (Line × Level)) (s : State) : (drivePins ps s).arrayDraw = s.arrayDraw := by
  induction ps generalizing s with
  | nil => rfl
  | cons p ps ih => simp [ih]

@[simp] theorem drivePins_port (ps : List (Line × Level)) (s : State) : (drivePins ps s).port = s.port := by
  induction ps generalizing s with
  | nil => rfl
  | cons p ps ih => simp [ih]

@[simp] theorem drivePins_trace (ps : List (Line × Level)) (s : State) : (drivePins ps s).trace = s.trace := by
  induction ps generalizing s with
  | nil => rfl
  | cons p ps ih => simp [ih]

@[simp] theorem drivePins_lvl (ps : List (Line × Level)) (s : State) :
    (drivePins ps s).lvl = ps.foldl (fun l p => l.set p.1 p.2) s.lvl := by
  induction ps generalizing s with
  | nil => rfl
  | cons p ps ih => simp [ih]

/-! `emit`: one event. `writeLine`, `shiftOutByte` and `waitMicroseconds` are emits. -/

@[simp] theorem writeLine_eq (l : Line) (v : Level) (s : State) : writeLine l v s = emit (.writeLine l v) s := rfl

@[simp] theorem shiftOutByte_eq (b : Byte) (s : State) : shiftOutByte b s = emit (.shiftOutByte b) s := rfl

@[simp] theorem waitMicroseconds_eq (n : Nat) (s : State) : waitMicroseconds n s = emit (.waitMicroseconds n) s := rfl

@[simp] theorem emit_trace (e : Event) (s : State) : (emit e s).trace = s.trace ++ [e] := by simp [emit, record]

@[simp] theorem emit_lvl (e : Event) (s : State) : (emit e s).lvl = (drivePins e.pins s).lvl := rfl

@[simp] theorem emit_chain (e : Event) (s : State) : (emit e s).chain = (drivePins e.pins s).chain := rfl

@[simp] theorem emit_draws (e : Event) (s : State) : (emit e s).draws = (drivePins e.pins s).draws := rfl

@[simp] theorem emit_configured (e : Event) (s : State) : (emit e s).configured = s.configured := by
  simp [emit, record]

@[simp] theorem emit_cfg (e : Event) (s : State) : (emit e s).cfg = s.cfg := by
  simp [emit, record]

@[simp] theorem emit_enState (e : Event) (s : State) : (emit e s).enState = s.enState := by
  simp [emit, record]

@[simp] theorem emit_pkt (e : Event) (s : State) : (emit e s).pkt = s.pkt := by
  simp [emit, record]

@[simp] theorem emit_seq (e : Event) (s : State) : (emit e s).seq = s.seq := by
  simp [emit, record]

@[simp] theorem emit_dcmem (e : Event) (s : State) : (emit e s).dcmem = s.dcmem := by
  simp [emit, record]

@[simp] theorem emit_pwmmem (e : Event) (s : State) : (emit e s).pwmmem = s.pwmmem := by
  simp [emit, record]

@[simp] theorem emit_params (e : Event) (s : State) : (emit e s).params = s.params := by
  simp [emit, record]

@[simp] theorem emit_arrayDraw (e : Event) (s : State) : (emit e s).arrayDraw = s.arrayDraw := by
  simp [emit, record]

@[simp] theorem emit_port (e : Event) (s : State) : (emit e s).port = s.port := by
  simp [emit, record]

/-! `emitPacket`. -/

@[simp] theorem emitPacket_configured (p : Packet) (s : State) : (emitPacket p s).configured = s.configured := by
  simp [emitPacket]

@[simp] theorem emitPacket_cfg (p : Packet) (s : State) : (emitPacket p s).cfg = s.cfg := by
  simp [emitPacket]

@[simp] theorem emitPacket_enState (p : Packet) (s : State) : (emitPacket p s).enState = s.enState := by
  simp [emitPacket]

@[simp] theorem emitPacket_pkt (p : Packet) (s : State) : (emitPacket p s).pkt = s.pkt := by
  simp [emitPacket]

@[simp] theorem emitPacket_seq (p : Packet) (s : State) : (emitPacket p s).seq = s.seq := by
  simp [emitPacket]

@[simp] theorem emitPacket_dcmem (p : Packet) (s : State) : (emitPacket p s).dcmem = s.dcmem := by
  simp [emitPacket]

@[simp] theorem emitPacket_pwmmem (p : Packet) (s : State) : (emitPacket p s).pwmmem = s.pwmmem := by
  simp [emitPacket]

@[simp] theorem emitPacket_params (p : Packet) (s : State) : (emitPacket p s).params = s.params := by
  simp [emitPacket]

@[simp] theorem emitPacket_arrayDraw (p : Packet) (s : State) : (emitPacket p s).arrayDraw = s.arrayDraw := by
  simp [emitPacket]

@[simp] theorem emitPacket_port (p : Packet) (s : State) : (emitPacket p s).port = s.port := by
  simp [emitPacket]

/-! `latchPulse`. -/

@[simp] theorem latchPulse_configured (s : State) : (latchPulse s).configured = s.configured := by
  simp [latchPulse]

@[simp] theorem latchPulse_cfg (s : State) : (latchPulse s).cfg = s.cfg := by
  simp [latchPulse]

@[simp] theorem latchPulse_enState (s : State) : (latchPulse s).enState = s.enState := by
  simp [latchPulse]

@[simp] theorem latchPulse_pkt (s : State) : (latchPulse s).pkt = s.pkt := by
  simp [latchPulse]

@[simp] theorem latchPulse_seq (s : State) : (latchPulse s).seq = s.seq := by
  simp [latchPulse]

@[simp] theorem latchPulse_dcmem (s : State) : (latchPulse s).dcmem = s.dcmem := by
  simp [latchPulse]

@[simp] theorem latchPulse_pwmmem (s : State) : (latchPulse s).pwmmem = s.pwmmem := by
  simp [latchPulse]

@[simp] theorem latchPulse_params (s : State) : (latchPulse s).params = s.params := by
  simp [latchPulse]

@[simp] theorem latchPulse_arrayDraw (s : State) : (latchPulse s).arrayDraw = s.arrayDraw := by
  simp [latchPulse]

@[simp] theorem latchPulse_port (s : State) : (latchPulse s).port = s.port := by
  simp [latchPulse]

/-! `transmitPacket`. -/

@[simp] theorem transmitPacket_pkt (p : Packet) (s : State) : (transmitPacket p s).pkt = p := by
  simp [transmitPacket]

@[simp] theorem transmitPacket_configured (p : Packet) (s : State) : (transmitPacket p s).configured = s.configured := by
  simp [transmitPacket]

@[simp] theorem transmitPacket_cfg (p : Packet) (s : State) : (transmitPacket p s).cfg = s.cfg := by
  simp [transmitPacket]

@[simp] theorem transmitPacket_enState (p : Packet) (s : State) : (transmitPacket p s).enState = s.enState := by
  simp [transmitPacket]

@[simp] theorem transmitPacket_seq (p : Packet) (s : State) : (transmitPacket p s).seq = s.seq := by
  simp [transmitPacket]

@[simp] theorem transmitPacket_dcmem (p : Packet) (s : State) : (transmitPacket p s).dcmem = s.dcmem := by
  simp [transmitPacket]

@[simp] theorem transmitPacket_pwmmem (p : Packet) (s : State) : (transmitPacket p s).pwmmem = s.pwmmem := by
  simp [transmitPacket]

@[simp] theorem transmitPacket_params (p : Packet) (s : State) : (transmitPacket p s).params = s.params := by
  simp [transmitPacket]

@[simp] theorem transmitPacket_arrayDraw (p : Packet) (s : State) : (transmitPacket p s).arrayDraw = s.arrayDraw := by
  simp [transmitPacket]

@[simp] theorem transmitPacket_port (p : Packet) (s : State) : (transmitPacket p s).port = s.port := by
  simp [transmitPacket]

/-! `driveIdle`. -/

@[simp] theorem driveIdle_configured (s : State) : (driveIdle s).configured = s.configured := by
  simp [driveIdle]

@[simp] theorem driveIdle_cfg (s : State) : (driveIdle s).cfg = s.cfg := by
  simp [driveIdle]

@[simp] theorem driveIdle_enState (s : State) : (driveIdle s).enState = s.enState := by
  simp [driveIdle]

@[simp] theorem driveIdle_pkt (s : State) : (driveIdle s).pkt = s.pkt := by
  simp [driveIdle]

@[simp] theorem driveIdle_seq (s : State) : (driveIdle s).seq = s.seq := by
  simp [driveIdle]

@[simp] theorem driveIdle_dcmem (s : State) : (driveIdle s).dcmem = s.dcmem := by
  simp [driveIdle]

@[simp] theorem driveIdle_pwmmem (s : State) : (driveIdle s).pwmmem = s.pwmmem := by
  simp [driveIdle]

@[simp] theorem driveIdle_params (s : State) : (driveIdle s).params = s.params := by
  simp [driveIdle]

@[simp] theorem driveIdle_arrayDraw (s : State) : (driveIdle s).arrayDraw = s.arrayDraw := by
  simp [driveIdle]

@[simp] theorem driveIdle_port (s : State) : (driveIdle s).port = s.port := by
  simp [driveIdle]

/-! The sequencer position takes no part in what the link does. -/

theorem hear_withSeq (l : Line) (v : Level) (q : Seq) (s : State) :
    hear l v (withSeq q s) = withSeq q (hear l v s) := by
  cases l
  case clk => simp only [hear]; split <;> rename_i h <;> split <;> rename_i h' <;>
    first | rfl | exact absurd h h' | exact absurd h' h
  case lat => simp only [hear]; split <;> rename_i h <;> split <;> rename_i h' <;>
    first | rfl | exact absurd h h' | exact absurd h' h
  all_goals rfl

theorem driveLine_withSeq (l : Line) (v : Level) (q : Seq) (s : State) :
    driveLine l v (withSeq q s) = withSeq q (driveLine l v s) := by
  simp only [driveLine, hear_withSeq]; rfl

theorem drivePins_withSeq (ps : List (Line × Level)) (q : Seq) (s : State) :
    drivePins ps (withSeq q s) = withSeq q (drivePins ps s) := by
  induction ps generalizing s with
  | nil => rfl
  | cons p ps ih => rw [drivePins_cons, driveLine_withSeq, ih, drivePins_cons]

theorem emit_withSeq (e : Event) (q : Seq) (s : State) : emit e (withSeq q s) = withSeq q (emit e s) := by
  simp only [emit, drivePins_withSeq]; rfl

theorem emitPacket_withSeq (p : Packet) (q : Seq) (s : State) :
    emitPacket p (withSeq q s) = withSeq q (emitPacket p s) := by
  simp only [emitPacket, shiftOutByte_eq, emit_withSeq]

theorem transmitPacket_withSeq (p : Packet) (q : Seq) (s : State) :
    transmitPacket p (withSeq q s) = withSeq q (transmitPacket p s) := emitPacket_withSeq p q (withPkt p s)

theorem latchPulse_withSeq (q : Seq) (s : State) : latchPulse (withSeq q s) = withSeq q (latchPulse s) := by
  simp only [latchPulse, writeLine_eq, waitMicroseconds_eq, emit_withSeq, withSeq_params]

/-! Elements depend on the arrays and their draw alone. -/

theorem dcElem_congr {s t : State} (hm : s.dcmem = t.dcmem) (hd : s.arrayDraw = t.arrayDraw) (i : Nat) :
    s.dcElem i = t.dcElem i := by simp [State.dcElem, hm, hd]

theorem pwmElem_congr {s t : State} (hm : s.pwmmem = t.pwmmem) (hd : s.arrayDraw = t.arrayDraw) (i : Nat) :
    s.pwmElem i = t.pwmElem i := by simp [State.pwmElem, hm, hd]

end Sys2Proof.Machine
end

