-- ==== Sys2Proof/Laws/Link.lean ====
section
/-! SUPPORT. What the link does to the lines and to the chain: one byte, one packet, one latch pulse. Stated for
the clock line at rest, which is where every event leaves it. -/

namespace Sys2Proof.Machine

/-- The bits `n-1` down to 0 of a value, most significant first. -/
def bitsDown {w : Nat} (v : BitVec w) : Nat → List Bool
  | 0 => []
  | n + 1 => v.getLsbD n :: bitsDown v n

/-- A list of bits clocked into the chain. -/
def shiftMany (bs : List Bool) (c : List ChainIC) : List ChainIC := bs.foldl (fun c d => shiftChain d c) c

theorem shiftMany_append (bs bs' : List Bool) (c : List ChainIC) :
    shiftMany (bs ++ bs') c = shiftMany bs' (shiftMany bs c) := List.foldl_append

/-- A whole 32-bit word pushed into the chain: every window moves on by one IC. -/
def pushWord (p : Packet) : List ChainIC → List ChainIC
  | [] => []
  | ic :: rest => { ic with sr := p } :: pushWord ic.sr rest

/-- One window after the bit `d`. -/
def srShift (x : BitVec 32) (d : Bool) : BitVec 32 := x <<< 1 ||| (BitVec.ofBool d).setWidth 32

/-- The bits that leave a window while `bs` is clocked in. -/
def srOut : BitVec 32 → List Bool → List Bool
  | _, [] => []
  | x, d :: bs => x.msb :: srOut (srShift x d) bs

theorem srShift_getLsbD (x : BitVec 32) (d : Bool) (i : Nat) (hi : i < 32) :
    (srShift x d).getLsbD i = if i = 0 then d else x.getLsbD (i - 1) := by
  simp only [srShift, BitVec.getLsbD_or, BitVec.getLsbD_shiftLeft, BitVec.getLsbD_setWidth, BitVec.getLsbD_ofBool]
  rcases i with _ | i
  · simp
  · simp [hi]

theorem srShift_many (p x : BitVec 32) (n : Nat) (i : Nat) (hi : i < 32) :
    ((bitsDown p n).foldl srShift x).getLsbD i = if i < n then p.getLsbD i else x.getLsbD (i - n) := by
  induction n generalizing x with
  | zero => simp [bitsDown]
  | succ n ih =>
    simp only [bitsDown, List.foldl_cons, ih]
    by_cases h : i < n
    · simp [h, Nat.lt_succ_of_lt h]
    · rw [srShift_getLsbD _ _ _ (by omega)]
      by_cases h2 : i = n
      · simp [h2]
      · have h3 : ¬ i < n + 1 := by omega
        have h4 : i - n ≠ 0 := by omega
        simp [h, h3, h4, Nat.sub_sub]

theorem srShift_word (p x : BitVec 32) : (bitsDown p 32).foldl srShift x = p := by
  apply BitVec.eq_of_getLsbD_eq
  intro i hi
  rw [srShift_many _ _ _ _ hi, if_pos hi]

theorem srOut_bits (p : BitVec 32) (n : Nat) (hn : n ≤ 32) (x : BitVec 32) :
    srOut x (bitsDown p n) = (List.range n).map fun k => x.getLsbD (31 - k) := by
  induction n generalizing x with
  | zero => rfl
  | succ n ih =>
    rw [bitsDown, srOut, ih (by omega), List.range_succ_eq_map, List.map_cons, List.map_map]
    congr 1
    apply List.map_congr_left
    intro k hk
    have hk := List.mem_range.mp hk
    rw [srShift_getLsbD _ _ _ (by omega), if_neg (by omega)]
    show _ = x.getLsbD (31 - (k + 1))
    congr 1

theorem srOut_word (p x : BitVec 32) : srOut x (bitsDown p 32) = bitsDown x 32 := by
  rw [srOut_bits p 32 (le_refl _)]; rfl

theorem shiftMany_cons (bs : List Bool) (ic : ChainIC) (rest : List ChainIC) :
    shiftMany bs (ic :: rest) = { ic with sr := bs.foldl srShift ic.sr } :: shiftMany (srOut ic.sr bs) rest := by
  induction bs generalizing ic rest with
  | nil => rfl
  | cons d bs ih =>
    show shiftMany bs (shiftChain d (ic :: rest)) = _
    rw [shiftChain, ih]; rfl

/-- Clocking the 32 bits of a word in, most significant first, pushes it as a whole (R55, R66). -/
theorem shiftMany_word (p : Packet) (c : List ChainIC) : shiftMany (bitsDown p 32) c = pushWord p c := by
  induction c generalizing p with
  | nil =>
    have : ∀ bs, shiftMany bs [] = [] := by
      intro bs
      induction bs with
      | nil => rfl
      | cons d bs ih => exact ih
    exact this _
  | cons ic rest ih => rw [shiftMany_cons, srShift_word, srOut_word, ih, pushWord]

/-- One bit at the pins, from a resting clock. -/
theorem bitPins_spec (d : Bool) (s : State) (h : s.lvl.clk = false) :
    (drivePins (bitPins d) s).lvl = { s.lvl with clk := false, dat := d } ∧
    (drivePins (bitPins d) s).chain = shiftChain d s.chain ∧ (drivePins (bitPins d) s).draws = s.draws := by
  simp [bitPins, Config.clkIdle, hear, driveLine, Levels.set, h]

theorem bytePins_spec (b : Byte) (n : Nat) (s : State) (h : s.lvl.clk = false) :
    (drivePins (bytePins b n) s).lvl.clk = false ∧
    (drivePins (bytePins b n) s).chain = shiftMany (bitsDown b n) s.chain ∧
    (drivePins (bytePins b n) s).draws = s.draws := by
  induction n generalizing s with
  | zero => exact ⟨h, rfl, rfl⟩
  | succ n ih =>
    obtain ⟨hl, hc, hd⟩ := bitPins_spec (b.getLsbD n) s h
    have hclk : (drivePins (bitPins (b.getLsbD n)) s).lvl.clk = false := by rw [hl]
    obtain ⟨ihl, ihc, ihd⟩ := ih _ hclk
    rw [bytePins, drivePins_append]
    refine ⟨ihl, ?_, ?_⟩
    · rw [ihc, hc]; rfl
    · rw [ihd, hd]

/-- The lines after a byte, wherever they stood (R68). -/
theorem shiftOutByte_lvl (b : Byte) (s : State) :
    (drivePins (Event.shiftOutByte b).pins s).lvl = { s.lvl with clk := false, dat := b.getLsbD 0 } := by
  simp [Event.pins, bytePins, bitPins, Config.clkIdle, Levels.set]

/-- The chain after a byte. -/
theorem shiftOutByte_chain (b : Byte) (s : State) (h : s.lvl.clk = false) :
    (drivePins (Event.shiftOutByte b).pins s).chain = shiftMany (bitsDown b 8) s.chain ∧
    (drivePins (Event.shiftOutByte b).pins s).draws = s.draws := (bytePins_spec b 8 s h).2

/-- The lines after a packet (R158). -/
theorem emitPacket_lvl (p : Packet) (s : State) :
    (emitPacket p s).lvl = { s.lvl with clk := false, dat := p.getLsbD 0 } := by
  simp only [emitPacket, shiftOutByte_eq, emit_lvl, shiftOutByte_lvl]
  simp [packetByte]

theorem bitsDown_bytes (p : Packet) :
    bitsDown (packetByte p 3) 8 ++ (bitsDown (packetByte p 2) 8 ++ (bitsDown (packetByte p 1) 8 ++
      bitsDown (packetByte p 0) 8)) = bitsDown p 32 := by
  simp [bitsDown, packetByte]

/-- The chain after a packet: every window has moved on by one IC. -/
theorem emitPacket_chain (p : Packet) (s : State) (h : s.lvl.clk = false) :
    (emitPacket p s).chain = pushWord p s.chain ∧ (emitPacket p s).draws = s.draws := by
  have clk : ∀ (b : Byte) (s : State), (emit (.shiftOutByte b) s).lvl.clk = false := by
    intro b s; rw [emit_lvl, shiftOutByte_lvl]
  have one : ∀ (b : Byte) (s : State), s.lvl.clk = false →
      (emit (.shiftOutByte b) s).chain = shiftMany (bitsDown b 8) s.chain ∧
      (emit (.shiftOutByte b) s).draws = s.draws := fun b s h => shiftOutByte_chain b s h
  simp only [emitPacket, shiftOutByte_eq]
  constructor
  · rw [(one _ _ (clk _ _)).1, (one _ _ (clk _ _)).1, (one _ _ (clk _ _)).1, (one _ _ h).1, ← shiftMany_append,
      ← shiftMany_append, ← shiftMany_append, bitsDown_bytes, shiftMany_word]
  · rw [(one _ _ (clk _ _)).2, (one _ _ (clk _ _)).2, (one _ _ (clk _ _)).2, (one _ _ h).2]

/-- The trace after a packet (R152). -/
@[simp] theorem emitPacket_trace (p : Packet) (s : State) :
    (emitPacket p s).trace = s.trace ++ [.shiftOutByte (packetByte p 3), .shiftOutByte (packetByte p 2),
      .shiftOutByte (packetByte p 1), .shiftOutByte (packetByte p 0)] := by
  simp [emitPacket]

/-- The trace after a latch pulse (R153). -/
@[simp] theorem latchPulse_trace (s : State) :
    (latchPulse s).trace = s.trace ++ [.writeLine .lat s.params.latchActive, .waitMicroseconds Config.waitRequestUs,
      .writeLine .lat (!s.params.latchActive), .waitMicroseconds Config.waitRequestUs] := by
  simp [latchPulse]

/-- The lines after a latch pulse: the latch line at rest. -/
theorem latchPulse_lvl (s : State) : (latchPulse s).lvl = { s.lvl with lat := !s.params.latchActive } := by
  simp [latchPulse, Event.pins, Levels.set]

/-- The chain after a latch pulse from a resting latch line: it has latched once (R61). -/
theorem latchPulse_chain (s : State) (h : s.lvl.lat = !s.params.latchActive) :
    (latchPulse s).chain = latchChain s.draws 1 s.chain ∧ (latchPulse s).draws = s.draws + 1 := by
  cases ha : s.params.latchActive <;> simp [latchPulse, Event.pins, hear, Levels.set, ha, h]

end Sys2Proof.Machine
end

