-- ==== Sys2Proof/Laws/Mem.lean ====
section
/-! SUPPORT. The laws of the arrays: read after write, canonical form, bounds; and for each write operation one
lemma that says everything it can do. -/

namespace Sys2Proof.Machine

variable {w : Nat}

theorem Mem.get?_set (m : Mem w) (i j : Nat) (v : BitVec w) :
    (m.set i v).get? j = if j = i then some v else m.get? j := by
  induction m with
  | nil => simp [Mem.set, Mem.get?]
  | cons c m ih =>
    obtain ⟨a, x⟩ := c
    simp only [Mem.set]
    split
    · simp [Mem.get?]
    · split
      · subst a; by_cases h : j = i <;> simp [Mem.get?, h]
      · by_cases h : j = a
        · have : j ≠ i := by omega
          simp [Mem.get?, h]; omega
        · simp [Mem.get?, h, ih]

theorem Mem.mem_set {m : Mem w} {i : Nat} {v : BitVec w} {c : Nat × BitVec w} (h : c ∈ m.set i v) :
    c = (i, v) ∨ c ∈ m := by
  induction m with
  | nil => simpa [Mem.set] using h
  | cons d m ih =>
    obtain ⟨a, x⟩ := d
    simp only [Mem.set] at h
    split at h
    · simpa using h
    · split at h
      · simp only [List.mem_cons] at h ⊢; tauto
      · simp only [List.mem_cons] at h ⊢
        rcases h with h | h
        · tauto
        · rcases ih h with h | h <;> tauto

theorem Mem.set_within {m : Mem w} {len i : Nat} {v : BitVec w} (h : m.within len) (hi : i < len) :
    (m.set i v).within len := by
  intro c hc
  rcases Mem.mem_set hc with rfl | hc
  · exact hi
  · exact h c hc

theorem Mem.set_wf {m : Mem w} {i : Nat} {v : BitVec w} (h : m.wf) : (m.set i v).wf := by
  induction m with
  | nil => simp [Mem.set, Mem.wf]
  | cons c m ih =>
    obtain ⟨a, x⟩ := c
    simp only [Mem.wf, List.map_cons, List.pairwise_cons, List.mem_map, forall_exists_index, and_imp,
      forall_apply_eq_imp_iff₂] at h
    simp only [Mem.set]
    split
    · rename_i hlt
      simp only [Mem.wf, List.map_cons, List.pairwise_cons, List.mem_cons, List.mem_map, forall_eq_or_imp,
        forall_exists_index, and_imp, forall_apply_eq_imp_iff₂]
      exact ⟨⟨hlt, fun d hd => lt_trans hlt (h.1 d hd)⟩, h⟩
    · split
      · subst i
        simpa [Mem.wf] using h
      · have hi : a < i := by omega
        have ih' := ih h.2
        simp only [Mem.wf, List.map_cons, List.pairwise_cons, List.mem_map, forall_exists_index, and_imp,
          forall_apply_eq_imp_iff₂]
        refine ⟨fun d hd => ?_, ih'⟩
        rcases Mem.mem_set hd with rfl | hd
        · exact hi
        · exact h.1 d hd

theorem Mem.mem_of_get? {m : Mem w} {i : Nat} {v : BitVec w} (h : m.get? i = some v) : (i, v) ∈ m := by
  induction m with
  | nil => cases h
  | cons c m ih =>
    obtain ⟨a, x⟩ := c
    simp only [Mem.get?] at h
    split at h
    · cases h; subst i; exact List.mem_cons_self
    · exact List.mem_cons_of_mem _ (ih h)

/-- Writing what a canonical array already holds changes nothing. -/
theorem Mem.set_of_get? {m : Mem w} {i : Nat} {v : BitVec w} (hm : m.wf) (h : m.get? i = some v) : m.set i v = m := by
  induction m with
  | nil => cases h
  | cons c m ih =>
    obtain ⟨a, x⟩ := c
    simp only [Mem.wf, List.map_cons, List.pairwise_cons] at hm
    simp only [Mem.get?] at h
    split at h
    · cases h; subst i; simp [Mem.set]
    · have hi : a < i := hm.1 i (List.mem_map.2 ⟨(i, v), Mem.mem_of_get? h, rfl⟩)
      simp only [Mem.set]
      rw [if_neg (by omega), if_neg (by omega), ih hm.2 h]

/-- Canonical form and bounds together: what every array write keeps. -/
def Mem.Good (m : Mem w) (len : Nat) : Prop := m.wf ∧ m.within len

theorem Mem.Good.set {m : Mem w} {len i : Nat} {v : BitVec w} (h : m.Good len) (hi : i < len) :
    (m.set i v).Good len := ⟨Mem.set_wf h.1, Mem.set_within h.2 hi⟩

theorem writeElem_eq (len : Nat) (m : Mem w) (i : Nat) (v : BitVec w) :
    writeElem len m i v = if i < len then .ok (m.set i v) else .error { index := i, left := m } := rfl

/-- `writeElem` answers the array with that one element written. -/
theorem writeElem_ok {len : Nat} {m m' : Mem w} {i : Nat} {v : BitVec w}
    (h : writeElem len m i v = .ok m') : i < len ∧ m' = m.set i v := by
  rw [writeElem_eq] at h
  split at h
  · exact ⟨‹_›, (Except.ok.inj h).symm⟩
  · cases h

/-- The slots of IC `n` are the three indices below `3 * n`. -/
theorem slot_lt_iff {n len : Nat} (hn : 1 ≤ n) : slot n 2 < len ↔ 3 * n ≤ len := by
  simp only [slot]; omega

/-- Everything `writeIC` can do: three writes when the IC's slots lie below the length, otherwise a stop at the
first slot that does not, with the writes before it made. -/
theorem writeIC_eq (len n : Nat) (e0 e1 e2 : BitVec w) (m : Mem w) :
    writeIC len n e0 e1 e2 m =
      if slot n 2 < len then .ok (((m.set (slot n 0) e0).set (slot n 1) e1).set (slot n 2) e2)
      else .error { index := max len (slot n 0)
                    left := if slot n 1 < len then (m.set (slot n 0) e0).set (slot n 1) e1
                            else if slot n 0 < len then m.set (slot n 0) e0 else m } := by
  have h01 : slot n 1 = slot n 0 + 1 := by simp [slot]
  have h02 : slot n 2 = slot n 0 + 2 := by simp [slot]
  simp only [writeIC, writeElem_eq, h01, h02]
  by_cases a : slot n 0 < len
  · by_cases b : slot n 0 + 1 < len
    · by_cases c : slot n 0 + 2 < len
      · simp [a, b, c, bind, Except.bind]
      · have : max len (slot n 0) = slot n 0 + 2 := by omega
        simp [a, b, c, this, bind, Except.bind]
    · have : max len (slot n 0) = slot n 0 + 1 := by omega
      have c : ¬ slot n 0 + 2 < len := by omega
      simp [a, b, c, this, bind, Except.bind]
  · have : max len (slot n 0) = slot n 0 := by omega
    have b : ¬ slot n 0 + 1 < len := by omega
    have c : ¬ slot n 0 + 2 < len := by omega
    simp [a, b, c, this, bind, Except.bind]

/-- When the slots of IC `n` do not all fit, `writeIC` stops at the first that does not: those before it hold their
values, every other element is as before, and the array stays good. -/
theorem writeIC_stop {len n : Nat} (e0 e1 e2 : BitVec w) (m : Mem w) (hn : 1 ≤ n) (h : len < 3 * n) :
    ∃ d, writeIC len n e0 e1 e2 m = .error { index := max len (slot n 0), left := d } ∧
      (∀ i, d.get? i = if slot n 0 ≤ i ∧ i < len then some (byChannel i e0 e1 e2) else m.get? i) ∧
      (m.Good len → d.Good len) := by
  have hs : ¬ slot n 2 < len := by rw [slot_lt_iff hn]; omega
  refine ⟨_, by rw [writeIC_eq, if_neg hs], ?_, ?_⟩
  · intro i
    have h0 : slot n 0 = 3 * (n - 1) := by simp only [slot]; omega
    have h1 : slot n 1 = 3 * (n - 1) + 1 := by simp only [slot]; omega
    rw [h0, h1, byChannel]
    split_ifs <;> (try simp only [Mem.get?_set]) <;> (try split_ifs) <;> first | rfl | omega
  · intro hm
    split
    · exact (hm.set (by simp only [slot] at *; omega)).set ‹_›
    · split
      · exact hm.set ‹_›
      · exact hm

/-- When all slots fit, `writeICs` succeeds: slot `k` of each IC up to `n` holds `e_k`, every other element is as
before, and the array stays good. -/
theorem writeICs_ok {len : Nat} {e0 e1 e2 : BitVec w} :
    ∀ {n : Nat} {m : Mem w}, 3 * n ≤ len → ∃ m', writeICs len e0 e1 e2 n m = .ok m' ∧
      (∀ i, m'.get? i = if i < 3 * n then some (byChannel i e0 e1 e2) else m.get? i) ∧
      (m.Good len → m'.Good len) := by
  intro n
  induction n with
  | zero => intro m _; exact ⟨m, rfl, by simp, id⟩
  | succ n ih =>
    intro m h
    obtain ⟨m', hm', hget, hgood⟩ := ih (m := m) (by omega)
    have hs : slot (n + 1) 2 < len := by rw [slot_lt_iff (by omega)]; exact h
    refine ⟨((m'.set (slot (n + 1) 0) e0).set (slot (n + 1) 1) e1).set (slot (n + 1) 2) e2, ?_, ?_, ?_⟩
    · simp [writeICs, hm', writeIC_eq, hs, bind, Except.bind]
    · intro i
      simp only [Mem.get?_set, hget, slot, byChannel]
      split_ifs <;> first | rfl | omega
    · intro hm
      simp only [slot] at hs ⊢
      exact (((hgood hm).set (by omega)).set (by omega)).set (by omega)

/-- On a shorter array `writeICs` stops at the first index that is not there: every element below it holds its
value, every other is as before, and the array stays good. -/
theorem writeICs_stop {len : Nat} {e0 e1 e2 : BitVec w} :
    ∀ {n : Nat} {m : Mem w}, len < 3 * n → ∃ d, writeICs len e0 e1 e2 n m = .error { index := len, left := d } ∧
      (∀ i, d.get? i = if i < len then some (byChannel i e0 e1 e2) else m.get? i) ∧ (m.Good len → d.Good len) := by
  intro n
  induction n with
  | zero => intro m h; omega
  | succ n ih =>
    intro m h
    by_cases hn : len < 3 * n
    · obtain ⟨d, hd, hget⟩ := ih (m := m) hn
      exact ⟨d, by simp [writeICs, hd, bind, Except.bind], hget⟩
    · obtain ⟨m', hm', hget, hgood⟩ := writeICs_ok (e0 := e0) (e1 := e1) (e2 := e2) (m := m) (Nat.not_lt.1 hn)
      obtain ⟨d, hd, hget', hgood'⟩ := writeIC_stop e0 e1 e2 m' (by omega) h
      have hmax : max len (slot (n + 1) 0) = len := by simp only [slot]; omega
      refine ⟨d, by simp [writeICs, hm', hd, hmax, bind, Except.bind], fun i => ?_, fun hm => hgood' (hgood hm)⟩
      have h0 : slot (n + 1) 0 = 3 * n := by simp only [slot]; omega
      rw [hget', hget, h0]
      split_ifs <;> first | rfl | omega

/-- `writeElem` keeps the array good. -/
theorem writeElem_good {len : Nat} {m m' : Mem w} {i : Nat} {v : BitVec w}
    (h : writeElem len m i v = .ok m') (hm : m.Good len) : m'.Good len := by
  obtain ⟨hi, rfl⟩ := writeElem_ok h
  exact hm.set hi

/-- `writeIC` keeps the array good. -/
theorem writeIC_good {len n : Nat} {e0 e1 e2 : BitVec w} {m m' : Mem w}
    (h : writeIC len n e0 e1 e2 m = .ok m') (hm : m.Good len) : m'.Good len := by
  rw [writeIC_eq] at h
  split at h
  · rename_i hs
    cases h
    simp only [slot] at hs ⊢
    exact ((hm.set (by omega)).set (by omega)).set (by omega)
  · cases h

/-- `writeICs` keeps the array good. -/
theorem writeICs_good {len n : Nat} {e0 e1 e2 : BitVec w} {m m' : Mem w}
    (h : writeICs len e0 e1 e2 n m = .ok m') (hm : m.Good len) : m'.Good len := by
  by_cases hn : 3 * n ≤ len
  · obtain ⟨m'', h', -, hg⟩ := writeICs_ok (e0 := e0) (e1 := e1) (e2 := e2) (m := m) hn
    rw [h] at h'; cases h'; exact hg hm
  · obtain ⟨d, hd, -⟩ := writeICs_stop (e0 := e0) (e1 := e1) (e2 := e2) (m := m) (Nat.not_le.1 hn)
    rw [h] at hd; cases hd

/-- The arrays are in canonical form at reset. -/
theorem reset_dcmem_wf : State.reset.dcmem.wf := List.Pairwise.nil

/-- The arrays are in canonical form at reset. -/
theorem reset_pwmmem_wf : State.reset.pwmmem.wf := List.Pairwise.nil

end Sys2Proof.Machine
end

