-- ==== Sys2Proof/Laws/Transmit.lean ====
section
/-! SUPPORT. What loading a packet, the loop of a Send and a whole Send can do, each said once. -/

namespace Sys2Proof.Machine

@[simp] theorem len_dcmem (p : Params) : p.len .dcmem = p.dcLen := rfl

@[simp] theorem len_pwmmem (p : Params) : p.len .pwmmem = p.pwmLen := rfl

/-- Everything `loadPacket` can do (R52, R132). -/
theorem loadPacket_eq (space : Space) (s : State) (n : Nat) :
    loadPacket space s n =
      if slot n 2 < s.params.len space then .ok (packetAt space s n)
      else .error (.arrayBounds space (max (s.params.len space) (slot n 0)) s.dcmem s.pwmmem) := by
  have h01 : slot n 1 = slot n 0 + 1 := by simp [slot]
  have h02 : slot n 2 = slot n 0 + 2 := by simp [slot]
  cases space <;>
  · simp only [loadPacket, readDC, readPWM, packetAt, h01, h02, len_dcmem, len_pwmmem]
    generalize hL : (s.params.dcLen : Nat) = L
    generalize hM : (s.params.pwmLen : Nat) = M
    generalize slot n 0 = a
    split_ifs <;> simp [bind, Except.bind] <;> omega

/-- A packet depends on the arrays and their draw alone (R133). -/
theorem packetAt_congr {s t : State} (hd : s.dcmem = t.dcmem) (hp : s.pwmmem = t.pwmmem)
    (ha : s.arrayDraw = t.arrayDraw) (space : Space) (n : Nat) : packetAt space s n = packetAt space t n := by
  cases space <;> simp only [packetAt, dcElem_congr hd ha, pwmElem_congr hp ha]

theorem packetsDown_congr {s t : State} (hd : s.dcmem = t.dcmem) (hp : s.pwmmem = t.pwmmem)
    (ha : s.arrayDraw = t.arrayDraw) (space : Space) (n : Nat) : packetsDown space s n = packetsDown space t n := by
  induction n with
  | zero => rfl
  | succ n ih => rw [packetsDown, packetsDown, ih, packetAt_congr hd hp ha]

theorem packetsDown_length (space : Space) (s : State) (n : Nat) : (packetsDown space s n).length = n := by
  induction n with
  | zero => rfl
  | succ n ih => simp [packetsDown, ih]

/-- A list of packets, transmitted in order. -/
def transmitMany (ps : List Packet) (s : State) : State := ps.foldl (fun s p => transmitPacket p s) s

@[simp] theorem transmitMany_nil (s : State) : transmitMany [] s = s := rfl

@[simp] theorem transmitMany_cons (p : Packet) (ps : List Packet) (s : State) :
    transmitMany (p :: ps) s = transmitMany ps (transmitPacket p s) := rfl

/-- What transmitting packets leaves alone (R158). -/
theorem transmitMany_frame (ps : List Packet) (s : State) :
    transmitMany ps s =
      { s with pkt := (transmitMany ps s).pkt, trace := (transmitMany ps s).trace, lvl := (transmitMany ps s).lvl,
               chain := (transmitMany ps s).chain, draws := (transmitMany ps s).draws } := by
  induction ps generalizing s with
  | nil => rfl
  | cons p ps ih =>
    rw [transmitMany_cons, ih]
    simp

theorem packetEvents_eq (p : Packet) :
    packetEvents p = [.shiftOutByte (packetByte p 3), .shiftOutByte (packetByte p 2), .shiftOutByte (packetByte p 1),
      .shiftOutByte (packetByte p 0)] := rfl

theorem transmitMany_trace (ps : List Packet) (s : State) :
    (transmitMany ps s).trace = s.trace ++ ps.flatMap packetEvents := by
  induction ps generalizing s with
  | nil => simp
  | cons p ps ih => simp [ih, transmitPacket, packetEvents_eq]

/-- The lines after packets: the clock at rest and the data line at the last packet's bit 0 (R158). -/
theorem transmitMany_lvl (ps : List Packet) (hps : ps ≠ []) (s : State) :
    (transmitMany ps s).lvl = { s.lvl with clk := false, dat := (ps.getLast hps).getLsbD 0 } := by
  induction ps generalizing s with
  | nil => exact absurd rfl hps
  | cons p ps ih =>
    by_cases h : ps = []
    · subst h; simp [transmitPacket, emitPacket_lvl]
    · simp [ih h, transmitPacket, emitPacket_lvl, List.getLast_cons h]

theorem transmitMany_pkt (ps : List Packet) (hps : ps ≠ []) (s : State) :
    (transmitMany ps s).pkt = ps.getLast hps := by
  induction ps generalizing s with
  | nil => exact absurd rfl hps
  | cons p ps ih =>
    by_cases h : ps = []
    · subst h; simp
    · simp [ih h, List.getLast_cons h]

theorem transmitMany_en_lat (ps : List Packet) (s : State) :
    (transmitMany ps s).lvl.en = s.lvl.en ∧ (transmitMany ps s).lvl.lat = s.lvl.lat := by
  by_cases h : ps = []
  · subst h; simp
  · simp [transmitMany_lvl ps h]

/-- The chain after packets: each has pushed the windows on by one IC. -/
theorem transmitMany_chain (ps : List Packet) (s : State) (h : s.lvl.clk = false) :
    (transmitMany ps s).chain = ps.foldl (fun c p => pushWord p c) s.chain ∧
    (transmitMany ps s).draws = s.draws ∧ (transmitMany ps s).lvl.clk = false := by
  induction ps generalizing s with
  | nil => exact ⟨rfl, rfl, h⟩
  | cons p ps ih =>
    have h1 : (transmitPacket p s).chain = pushWord p s.chain ∧ (transmitPacket p s).draws = s.draws := by
      have := emitPacket_chain p (withPkt p s) h
      exact this
    have h2 : (transmitPacket p s).lvl.clk = false := by simp [transmitPacket, emitPacket_lvl]
    obtain ⟨a, b, c⟩ := ih (transmitPacket p s) h2
    exact ⟨by rw [transmitMany_cons, a, h1.1]; rfl, by rw [transmitMany_cons, b, h1.2], c⟩

theorem transmitMany_withSeq (ps : List Packet) (q : Seq) (s : State) :
    transmitMany ps (withSeq q s) = withSeq q (transmitMany ps s) := by
  induction ps generalizing s with
  | nil => rfl
  | cons p ps ih => rw [transmitMany_cons, transmitPacket_withSeq, ih, transmitMany_cons]

/-- Everything the loop of a Send can do: the packets of ICs `n` down to 1 when the slots of IC `n` fit (and then
all others do), otherwise a fault in its first iteration (R150). -/
theorem sendPackets_eq (space : Space) (n : Nat) (s : State) :
    sendPackets space n s =
      if 3 * n ≤ s.params.len space then .ok (transmitMany (packetsDown space s n) s)
      else .error (.arrayBounds space (max (s.params.len space) (3 * n - 3)) s.dcmem s.pwmmem) := by
  induction n generalizing s with
  | zero => simp [sendPackets, packetsDown]
  | succ n ih =>
    have hs := slot_lt_iff (n := n + 1) (len := s.params.len space) (by omega)
    have h0 : slot (n + 1) 0 = 3 * (n + 1) - 3 := by simp only [slot]; omega
    simp only [sendPackets, loadPacket_eq, hs, h0]
    split
    · rename_i h
      have hc : packetsDown space (transmitPacket (packetAt space s (n + 1)) s) n = packetsDown space s n :=
        packetsDown_congr (by simp) (by simp) (by simp) space n
      have hn : 3 * n ≤ s.params.len space := by omega
      simp [bind, Except.bind, ih, hn, hc, packetsDown]
    · rfl

/-- Everything a Send can do. -/
theorem send_eq (space : Space) (s : State) :
    send space s =
      if 3 * s.count ≤ s.params.len space then
        .ok (withSeq (restSeq space) (latchPulse (transmitMany (packetsDown space s s.count) s)))
      else .error (.arrayBounds space (max (s.params.len space) (3 * s.count - 3)) s.dcmem s.pwmmem) := by
  simp only [send, sendPackets_eq]
  split <;> rfl

end Sys2Proof.Machine
end

