-- ==== Sys2Proof/Laws/Exec.lean ====
section
/-! SUPPORT. Everything an instruction can do, said once: when `exec` answers a next state, one of seven cases
holds (`exec_cases`); and the closed forms of the lines after SetEnabled and Configure. -/

namespace Sys2Proof.Machine

@[simp] theorem whenConfigured_true {s : State} {i : Instr} {k : Host.Outcome State Fault Refusal}
    (h : s.configured = true) : whenConfigured i s k = k := by simp [whenConfigured, h]

@[simp] theorem whenConfigured_false {s : State} {i : Instr} {k : Host.Outcome State Fault Refusal}
    (h : s.configured = false) : whenConfigured i s k = .refused (.unconfigured i) := by simp [whenConfigured, h]

/-- Past the gate the block is configured. -/
theorem whenConfigured_next {s t : State} {i : Instr} {k : Host.Outcome State Fault Refusal}
    (h : whenConfigured i s k = .next t) : s.configured = true ∧ k = .next t := by
  unfold whenConfigured at h
  split at h
  · exact ⟨‹_›, h⟩
  · cases h

theorem finish_next {r : Except Fault State} {t : State} (h : finish r = .next t) : r = .ok t := by
  cases r with
  | ok s => cases h; rfl
  | error f => cases h

theorem setDCMem_next {s t : State} {r : Except (WriteStop 8) (Mem 8)} (h : setDCMem s r = .next t) :
    ∃ m, r = .ok m ∧ t = { s with dcmem := m } := by
  cases r with
  | ok m => cases h; exact ⟨m, rfl, rfl⟩
  | error f => cases h

theorem setPWMMem_next {s t : State} {r : Except (WriteStop 16) (Mem 16)} (h : setPWMMem s r = .next t) :
    ∃ m, r = .ok m ∧ t = { s with pwmmem := m } := by
  cases r with
  | ok m => cases h; exact ⟨m, rfl, rfl⟩
  | error f => cases h

/-- The state a completed Send leaves. -/
def sent (space : Space) (s : State) : State :=
  withSeq (restSeq space) (latchPulse (transmitMany (packetsDown space s s.count) s))

theorem finish_send_next {space : Space} {s t : State} (h : finish (send space s) = .next t) :
    3 * s.count ≤ s.params.len space ∧ t = sent space s := by
  have h := finish_next h
  rw [send_eq] at h
  split at h
  · cases h; exact ⟨‹_›, rfl⟩
  · cases h

/-- What SetEnabled does past its gate. -/
def enabledTo (enabled : Bool) (s : State) : State :=
  { writeLine .en (enableLevel s.params enabled) s with enState := enableState enabled }

/-- The seven ways an instruction can answer a next state. -/
inductive ExecCase (s : State) : Instr → State → Prop where
  /-- Nothing changes: Nop, a second Configure, a dropped request. -/
  | same (i : Instr) : ExecCase s i s
  /-- A setter has written DCMEM. -/
  | setDC (i : Instr) (m : Mem 8) (hc : s.configured = true) (hi : isSetterOf .dcmem i = true)
      (hg : s.dcmem.Good s.params.dcLen → m.Good s.params.dcLen) : ExecCase s i { s with dcmem := m }
  /-- A setter has written PWMMEM. -/
  | setPWM (i : Instr) (m : Mem 16) (hc : s.configured = true) (hi : isSetterOf .pwmmem i = true)
      (hg : s.pwmmem.Good s.params.pwmLen → m.Good s.params.pwmLen) : ExecCase s i { s with pwmmem := m }
  /-- A Send. -/
  | send (space : Space) (hc : s.configured = true) (hf : 3 * s.count ≤ s.params.len space) :
      ExecCase s (sendOf space) (sent space s)
  /-- SetEnabled. -/
  | enable (enabled : Bool) (hc : s.configured = true) : ExecCase s (.setEnabled enabled) (enabledTo enabled s)
  /-- The first Configure. -/
  | configure (ics clk en lat dat : BitVec 8) (hc : s.configured = false) (hd : idsDistinct clk en lat dat = true) :
      ExecCase s (.configure ics clk en lat dat) (construct ics clk en lat dat s)
  /-- A wire packet. -/
  | packet (i : Instr) (p : Packet) (hc : s.configured = true) (hp : encode i = .packet p) :
      ExecCase s i (transmitPacket p s)

theorem encode_wireDC (c0 c1 c2 : BitVec 7) : encode (.wireDC c0 c1 c2) = .packet (encodeDotCorrection c0 c1 c2) := by
  simp [encode, encodeDotCorrection, mask7]

theorem encode_wirePWM (c0 c1 c2 : BitVec 10) : encode (.wirePWM c0 c1 c2) = .packet (encodeIntensity c0 c1 c2) := by
  simp [encode, encodeIntensity, mask10]

/-- Everything an instruction can do when it answers a next state. -/
theorem exec_cases {s t : State} {i : Instr} (h : exec i s = .next t) : ExecCase s i t := by
  cases i with
  | nop => cases h; exact .same _
  | configure ics clk en lat dat =>
    simp only [exec, execConfigure] at h
    split at h
    · rename_i hd
      split at h
      · cases h; exact .same _
      · rename_i hc; cases h; exact .configure _ _ _ _ _ (by simpa using hc) hd
    · cases h
  | setDotCorrectionForIC ic v0 v1 v2 =>
    obtain ⟨hc, h⟩ := whenConfigured_next h
    split at h
    · obtain ⟨m, hm, rfl⟩ := setDCMem_next h
      exact .setDC _ m hc rfl (writeIC_good hm)
    · cases h; exact .same _
  | setDotCorrectionForAllICs v0 v1 v2 =>
    obtain ⟨hc, h⟩ := whenConfigured_next h
    obtain ⟨m, hm, rfl⟩ := setDCMem_next h
    exact .setDC _ m hc rfl (writeICs_good hm)
  | setIntensityForIC ic v0 v1 v2 =>
    obtain ⟨hc, h⟩ := whenConfigured_next h
    split at h
    · obtain ⟨m, hm, rfl⟩ := setPWMMem_next h
      exact .setPWM _ m hc rfl (writeIC_good hm)
    · cases h; exact .same _
  | setIntensityForAllICs v0 v1 v2 =>
    obtain ⟨hc, h⟩ := whenConfigured_next h
    obtain ⟨m, hm, rfl⟩ := setPWMMem_next h
    exact .setPWM _ m hc rfl (writeICs_good hm)
  | sendDotCorrection =>
    obtain ⟨hc, h⟩ := whenConfigured_next h
    obtain ⟨hf, rfl⟩ := finish_send_next h
    exact .send .dcmem hc hf
  | sendIntensity =>
    obtain ⟨hc, h⟩ := whenConfigured_next h
    obtain ⟨hf, rfl⟩ := finish_send_next h
    exact .send .pwmmem hc hf
  | setEnabled enabled =>
    obtain ⟨hc, h⟩ := whenConfigured_next h
    cases h; exact .enable _ hc
  | wireDC c0 c1 c2 =>
    obtain ⟨hc, h⟩ := whenConfigured_next h
    cases h; exact .packet _ _ hc (encode_wireDC c0 c1 c2)
  | wirePWM c0 c1 c2 =>
    obtain ⟨hc, h⟩ := whenConfigured_next h
    cases h; exact .packet _ _ hc (encode_wirePWM c0 c1 c2)

/-- What a completed Send leaves alone (R158). -/
theorem sent_frame (space : Space) (s : State) :
    sent space s =
      { s with pkt := (sent space s).pkt, seq := restSeq space, trace := (sent space s).trace,
               lvl := (sent space s).lvl, chain := (sent space s).chain, draws := (sent space s).draws } := by
  rw [sent, transmitMany_frame]; simp [withSeq]

/-- The trace of a completed Send (R150, R151). -/
theorem sent_trace (space : Space) (s : State) : (sent space s).trace = s.trace ++ sendEvents space s := by
  have hp : (transmitMany (packetsDown space s s.count) s).params = s.params := by rw [transmitMany_frame]
  simp [sent, transmitMany_trace, sendEvents, latchEvents, Config.waitRequestUs, hp]

/-- The lines after a completed Send: enable as it was, latch at rest (R158). -/
theorem sent_lvl (space : Space) (s : State) :
    (sent space s).lvl =
      { (transmitMany (packetsDown space s s.count) s).lvl with lat := !s.params.latchActive } := by
  have hp : (transmitMany (packetsDown space s s.count) s).params = s.params := by rw [transmitMany_frame]
  simp [sent, latchPulse_lvl, hp]

/-- SetEnabled moves the enable line, ENSTATE and the trace only (R180). -/
theorem enabledTo_eq (enabled : Bool) (s : State) :
    enabledTo enabled s = { s with
      trace := s.trace ++ [.writeLine .en (enableLevel s.params enabled)]
      lvl := { s.lvl with en := enableLevel s.params enabled }
      enState := enableState enabled } := rfl

/-- Configure's clamp lands in 1 to 250 (R21). -/
theorem clampICs_range (ics : BitVec 8) : 1 ≤ (clampICs ics).toNat ∧ (clampICs ics).toNat ≤ Config.maxChain := by
  unfold clampICs
  split
  · assumption
  · decide

/-- The four line writes of Configure from any levels (R181). -/
theorem driveIdle_eq (s : State) :
    driveIdle s = { s with
      lvl := { clk := false, en := !s.params.enableActive, lat := !s.params.latchActive, dat := false }
      trace := s.trace ++ [.writeLine .clk false, .writeLine .en (!s.params.enableActive),
        .writeLine .lat (!s.params.latchActive), .writeLine .dat false] } := by
  obtain ⟨_, _, _, ⟨_, _, _, _⟩, _, _, _, _, _, ⟨_, _, _, a⟩, _, _, _, _⟩ := s
  cases a <;> simp [driveIdle, emit, record, Event.pins, drivePins, driveLine, hear, Levels.set, Config.clkIdle]

end Sys2Proof.Machine
end

