-- ==== Sys2Proof/Laws/Chain.lean ====
section
/-! SUPPORT. The chain of the reference receiver after packets and a latch: which window holds what (R56, R66). -/

namespace Sys2Proof.Machine

/-- Packets pushed into the chain one after another. -/
def pushMany (ps : List Packet) (ch : List ChainIC) : List ChainIC := ps.foldl (fun ch p => pushWord p ch) ch

theorem pushWord_length (p : Packet) (ch : List ChainIC) : (pushWord p ch).length = ch.length := by
  induction ch generalizing p with
  | nil => rfl
  | cons a ch ih => simp [pushWord, ih]

theorem pushMany_length (ps : List Packet) (ch : List ChainIC) : (pushMany ps ch).length = ch.length := by
  induction ps generalizing ch with
  | nil => rfl
  | cons p ps ih => exact (ih _).trans (pushWord_length p ch)

/-- A pushed word reaches window 0; every other window takes the one before it. The registers stay. -/
theorem pushWord_get (p : Packet) (ch : List ChainIC) (m : Nat) (ic : ChainIC) (h : ch[m]? = some ic) :
    (pushWord p ch)[m]? = some { ic with sr := if m = 0 then p else ((ch[m - 1]?).map ChainIC.sr).getD 0 } := by
  induction ch generalizing p m with
  | nil => simp at h
  | cons a ch ih =>
    cases m with
    | zero => simp at h; subst h; simp [pushWord]
    | succ m =>
      simp at h
      simp only [pushWord, List.getElem?_cons_succ]
      rw [ih _ _ h]
      cases m <;> simp

theorem pushMany_keeps (ps : List Packet) (ch : List ChainIC) (m : Nat) (ic : ChainIC) (h : ch[m]? = some ic) :
    ∃ x, (pushMany ps ch)[m]? = some x ∧ x = { ic with sr := x.sr } := by
  induction ps generalizing ch ic with
  | nil => exact ⟨ic, h, rfl⟩
  | cons p ps ih =>
    obtain ⟨x, hx, hy⟩ := ih _ _ (pushWord_get p ch m ic h)
    exact ⟨x, hx, by rw [hy]⟩

/-- After packets `ps`, window `m` holds the `m`-th from the last, and the registers are as they were (R56). -/
theorem pushMany_get (ps : List Packet) (ch : List ChainIC) (m : Nat) (ic : ChainIC) (h : ch[m]? = some ic)
    (hm : m < ps.length) : (pushMany ps ch)[m]? = some { ic with sr := ps.reverse[m]'(by simpa using hm) } := by
  induction ps using List.reverseRecOn generalizing m ic with
  | nil => simp at hm
  | append_singleton ps p ih =>
    obtain ⟨ic1, h1, h2⟩ := pushMany_keeps ps ch m ic h
    have hp : pushMany (ps ++ [p]) ch = pushWord p (pushMany ps ch) := List.foldl_append
    rw [hp, pushWord_get _ _ _ _ h1, h2]
    cases m with
    | zero => simp
    | succ m =>
      have hmc : m < ch.length := Nat.lt_of_succ_lt (List.getElem?_eq_some_iff.1 h).1
      have := ih m ch[m] (List.getElem?_eq_getElem hmc) (by simp at hm; omega)
      simp [this]

theorem latchChain_length (d k : Nat) (ch : List ChainIC) : (latchChain d k ch).length = ch.length := by
  induction ch generalizing k with
  | nil => rfl
  | cons a ch ih => simp [latchChain, ih]

theorem latchChain_get (d k : Nat) (ch : List ChainIC) (m : Nat) (ic : ChainIC) (h : ch[m]? = some ic) :
    (latchChain d k ch)[m]? = some (latchIC d (k + m) ic) := by
  induction ch generalizing k m with
  | nil => simp at h
  | cons a ch ih =>
    cases m with
    | zero => simp at h; subst h; simp [latchChain]
    | succ m =>
      simp at h
      simp only [latchChain, List.getElem?_cons_succ]
      rw [ih _ _ h]
      congr 2; omega

/-- The latch edge at an IC whose window is a dot-correction packet (R66, R81). -/
theorem latchIC_dc {d k : Nat} {ic : ChainIC} (hr : ic.refused = none) (h : ic.sr &&& wireDCMask = wireDCMatch) :
    latchIC d k ic =
      { ic with
        dc2 := ic.sr.extractLsb' 20 7, dc1 := ic.sr.extractLsb' 10 7, dc0 := ic.sr.extractLsb' 0 7,
        clockMode := ic.sr.extractLsb' 7 2 } := by
  simp [latchIC, hr, h]

/-- The latch edge at an IC whose window is an intensity packet (R66, R82). -/
theorem latchIC_pwm {d k : Nat} {ic : ChainIC} (hr : ic.refused = none) (h : ¬ ic.sr &&& wireDCMask = wireDCMatch)
    (h' : ic.sr &&& wirePWMMask = wirePWMMatch) :
    latchIC d k ic =
      { ic with
        pwm2 := ic.sr.extractLsb' 20 10, pwm1 := ic.sr.extractLsb' 10 10, pwm0 := ic.sr.extractLsb' 0 10 } := by
  simp [latchIC, hr, h, h']

/-- The latch edge at an IC whose window is no packet (U5; log 8). -/
theorem latchIC_stray {d k : Nat} {ic : ChainIC} (hr : ic.refused = none) (h : ¬ ic.sr &&& wireDCMask = wireDCMatch)
    (h' : ¬ ic.sr &&& wirePWMMask = wirePWMMatch) : latchIC d k ic = refuseIC d k ic.sr ic := by
  simp [latchIC, hr, h, h']

/-- The latch edge at an IC that has refused a window (log 8). -/
theorem latchIC_refused {d k : Nat} {ic : ChainIC} {w : BitVec 32} (h : ic.refused = some w) :
    latchIC d k ic = refuseIC d k w ic := by
  simp [latchIC, h]

/-- The loop's packets, counted from the last sent: IC 1's first. -/
theorem packetsDown_reverse (space : Space) (s : State) (n : Nat) :
    (packetsDown space s n).reverse = (List.range n).map fun k => packetAt space s (k + 1) := by
  induction n with
  | zero => rfl
  | succ n ih => rw [packetsDown, List.reverse_cons, ih, List.range_succ]; simp

/-- The chain after a Send from resting lines: all packets pushed, then one latch (R61). -/
theorem sent_chain (space : Space) (s : State) (hclk : s.lvl.clk = false) (hlat : s.lvl.lat = !s.params.latchActive) :
    (sent space s).chain = latchChain s.draws 1 (pushMany (packetsDown space s s.count) s.chain) := by
  have hp : (transmitMany (packetsDown space s s.count) s).params = s.params := by rw [transmitMany_frame]
  have := latchPulse_chain (transmitMany (packetsDown space s s.count) s)
    (by rw [(transmitMany_en_lat _ _).2, hp]; exact hlat)
  simp only [sent, withSeq_chain, this.1, (transmitMany_chain _ s hclk).1, (transmitMany_chain _ s hclk).2.1]
  rfl

/-- IC `m + 1` after a Send on a chain of exactly `N` ICs with the lines at rest: its own packet, latched (R159). -/
theorem sent_chain_get (space : Space) (s : State) (hl : s.chain.length = s.cfg.chainLength.toNat)
    (hclk : s.lvl.clk = false) (hlat : s.lvl.lat = !s.params.latchActive) (m : Nat) (ic : ChainIC)
    (h : s.chain[m]? = some ic) :
    (sent space s).chain[m]? = some (latchIC s.draws (1 + m) { ic with sr := packetAt space s (m + 1) }) := by
  have hm : m < s.chain.length := (List.getElem?_eq_some_iff.1 h).1
  rw [sent_chain space s hclk hlat,
    latchChain_get _ _ _ _ _ (pushMany_get _ _ _ _ h (by rw [packetsDown_length]; simp [State.count]; omega))]
  simp [packetsDown_reverse]

end Sys2Proof.Machine
end

