-- ==== Sys2Proof/Laws/Decode.lean ====
section
/-! SUPPORT. The fields of a command word built in each format (R88), and the fields of a packet built in each
format (R81, R82). -/

namespace Sys2Proof

/-- A word of format `S` has the fields it was built from. -/
theorem formatS_fields (op : BitVec 4) (r : BitVec 4) (ic : BitVec 8) (v0 v1 v2 : BitVec 16) :
    opcodeField (op ++ r ++ ic ++ v2 ++ v1 ++ v0) = op ∧ icField (op ++ r ++ ic ++ v2 ++ v1 ++ v0) = ic ∧
    v2Field (op ++ r ++ ic ++ v2 ++ v1 ++ v0) = v2 ∧ v1Field (op ++ r ++ ic ++ v2 ++ v1 ++ v0) = v1 ∧
    v0Field (op ++ r ++ ic ++ v2 ++ v1 ++ v0) = v0 := by
  refine ⟨?_, ?_, ?_, ?_, ?_⟩ <;> apply BitVec.eq_of_getLsbD_eq <;> intro i hi <;>
    simp only [opcodeField, icField, v2Field, v1Field, v0Field, BitVec.getLsbD_extractLsb', BitVec.getLsbD_append, hi,
      decide_true, Bool.true_and] <;>
    interval_cases i <;> rfl

/-- A word of format `A` has the fields it was built from. -/
theorem formatA_fields (op : BitVec 4) (r : BitVec 12) (v0 v1 v2 : BitVec 16) :
    opcodeField (op ++ r ++ v2 ++ v1 ++ v0) = op ∧ v2Field (op ++ r ++ v2 ++ v1 ++ v0) = v2 ∧
    v1Field (op ++ r ++ v2 ++ v1 ++ v0) = v1 ∧ v0Field (op ++ r ++ v2 ++ v1 ++ v0) = v0 := by
  refine ⟨?_, ?_, ?_, ?_⟩ <;> apply BitVec.eq_of_getLsbD_eq <;> intro i hi <;>
    simp only [opcodeField, v2Field, v1Field, v0Field, BitVec.getLsbD_extractLsb', BitVec.getLsbD_append, hi,
      decide_true, Bool.true_and] <;>
    interval_cases i <;> rfl

/-- A word of format `C` has the fields it was built from. -/
theorem formatC_fields (op : BitVec 4) (r : BitVec 20) (ics clk en lat dat : BitVec 8) :
    opcodeField (op ++ r ++ ics ++ clk ++ en ++ lat ++ dat) = op ∧
    icsField (op ++ r ++ ics ++ clk ++ en ++ lat ++ dat) = ics ∧
    clkField (op ++ r ++ ics ++ clk ++ en ++ lat ++ dat) = clk ∧
    enlField (op ++ r ++ ics ++ clk ++ en ++ lat ++ dat) = en ∧
    latField (op ++ r ++ ics ++ clk ++ en ++ lat ++ dat) = lat ∧
    datField (op ++ r ++ ics ++ clk ++ en ++ lat ++ dat) = dat := by
  refine ⟨?_, ?_, ?_, ?_, ?_, ?_⟩ <;> apply BitVec.eq_of_getLsbD_eq <;> intro i hi <;>
    simp only [opcodeField, icsField, clkField, enlField, latField, datField, BitVec.getLsbD_extractLsb',
      BitVec.getLsbD_append, hi, decide_true, Bool.true_and] <;>
    interval_cases i <;> rfl

/-- A word of format `E` has the fields it was built from. -/
theorem formatE_fields (op : BitVec 4) (r : BitVec 59) (en : Bool) :
    opcodeField (op ++ r ++ BitVec.ofBool en) = op ∧ enField (op ++ r ++ BitVec.ofBool en) = en := by
  constructor
  · apply BitVec.eq_of_getLsbD_eq
    intro i hi
    simp only [opcodeField, BitVec.getLsbD_extractLsb', BitVec.getLsbD_append, hi, decide_true, Bool.true_and]
    interval_cases i <;> rfl
  · show (op ++ r ++ BitVec.ofBool en).getLsbD 0 = en
    rw [BitVec.getLsbD_append]
    cases en <;> rfl

/-- A word of format `T` has the opcode it was built from. -/
theorem formatT_fields (op : BitVec 4) (r : BitVec 60) : opcodeField (op ++ r) = op := by
  apply BitVec.eq_of_getLsbD_eq
  intro i hi
  simp only [opcodeField, BitVec.getLsbD_extractLsb', BitVec.getLsbD_append, hi, decide_true, Bool.true_and]
  interval_cases i <;> rfl

end Sys2Proof
end

