-- ==== Sys2Proof/Laws/PerInstr.lean ====
section
/-! SUPPORT. Statements made per instruction. `RowMatch`: the word an instruction is encoded as matches its row of
spec/opcode_table.json, which is the row's mask and match (R89, R95). -/

namespace Sys2Proof.Laws.RowMatch

/-- The row of a command: opcode and 64-bit mask `0xF000000000000000` (R89). -/
def commandRow (op : BitVec 4) : Code → Prop
  | .command w => opcodeField w = op
  | .packet _ => False

/-- The row of a packet: mask and match over its constant bits (R95). -/
def packetRow (mask mtch : Packet) : Code → Prop
  | .command _ => False
  | .packet p => p &&& mask = mtch

/-- The encoding of `i` matches the row of `i`. -/
def Statement (i : Instr) : Prop :=
  match i with
  | .nop => commandRow 0x0 (encode i)
  | .configure _ _ _ _ _ => commandRow 0x1 (encode i)
  | .setDotCorrectionForIC _ _ _ _ => commandRow 0x2 (encode i)
  | .setDotCorrectionForAllICs _ _ _ => commandRow 0x3 (encode i)
  | .setIntensityForIC _ _ _ _ => commandRow 0x4 (encode i)
  | .setIntensityForAllICs _ _ _ => commandRow 0x5 (encode i)
  | .sendDotCorrection => commandRow 0x6 (encode i)
  | .sendIntensity => commandRow 0x7 (encode i)
  | .setEnabled _ => commandRow 0x8 (encode i)
  | .wireDC _ _ _ => packetRow 0xF80E0380#32 0x40000000#32 (encode i)
  | .wirePWM _ _ _ => packetRow 0xC0000000#32 0x00000000#32 (encode i)

theorem nop : Statement .nop := formatT_fields 0x0#4 0#60

theorem configure (ics clk en lat dat : BitVec 8) : Statement (.configure ics clk en lat dat) :=
  (formatC_fields 0x1#4 0#20 ics clk en lat dat).1

theorem setDotCorrectionForIC (ic : BitVec 8) (v0 v1 v2 : BitVec 16) : Statement (.setDotCorrectionForIC ic v0 v1 v2) :=
  (formatS_fields 0x2#4 0#4 ic v0 v1 v2).1

theorem setDotCorrectionForAllICs (v0 v1 v2 : BitVec 16) : Statement (.setDotCorrectionForAllICs v0 v1 v2) :=
  (formatA_fields 0x3#4 0#12 v0 v1 v2).1

theorem setIntensityForIC (ic : BitVec 8) (v0 v1 v2 : BitVec 16) : Statement (.setIntensityForIC ic v0 v1 v2) :=
  (formatS_fields 0x4#4 0#4 ic v0 v1 v2).1

theorem setIntensityForAllICs (v0 v1 v2 : BitVec 16) : Statement (.setIntensityForAllICs v0 v1 v2) :=
  (formatA_fields 0x5#4 0#12 v0 v1 v2).1

theorem sendDotCorrection : Statement .sendDotCorrection := formatT_fields 0x6#4 0#60

theorem sendIntensity : Statement .sendIntensity := formatT_fields 0x7#4 0#60

theorem setEnabled (enabled : Bool) : Statement (.setEnabled enabled) := (formatE_fields 0x8#4 0#59 enabled).1

theorem wireDC (c0 c1 c2 : BitVec 7) : Statement (.wireDC c0 c1 c2) := by
  show (0b01#2 ++ 0#3 ++ c2 ++ 0#3 ++ c1 ++ 0#1 ++ 0#2 ++ c0 : BitVec 32) &&& 0xF80E0380#32 = 0x40000000#32
  apply BitVec.eq_of_getLsbD_eq
  intro i hi
  simp only [BitVec.getLsbD_and, BitVec.getLsbD_append]
  interval_cases i <;> simp

theorem wirePWM (c0 c1 c2 : BitVec 10) : Statement (.wirePWM c0 c1 c2) := by
  show (0b00#2 ++ c2 ++ c1 ++ c0 : BitVec 32) &&& 0xC0000000#32 = 0x00000000#32
  apply BitVec.eq_of_getLsbD_eq
  intro i hi
  simp only [BitVec.getLsbD_and, BitVec.getLsbD_append]
  interval_cases i <;> simp

end Sys2Proof.Laws.RowMatch
end

