-- ==== Sys2Proof/Tests/Slice0.lean ====
section
/-! SUPPORT. Our own tests: ill-formed terms, words written out from the spec's encodings, single steps from the
vectors of 95_test_vectors.md (each test names its vector), and a witness for every statement with hypotheses. -/

namespace Sys2Proof.Tests

open Sys2Proof Sys2Proof.Machine

/-! Helpers -/

/-- A chain IC holding zeros. -/
def zeroIC : ChainIC :=
  { sr := 0, dc0 := 0, dc1 := 0, dc2 := 0, pwm0 := 0, pwm1 := 0, pwm2 := 0, clockMode := 0, refused := none }

/-- An array holding the listed values from index 0. -/
def cells (w : Nat) (vs : List Nat) : Mem w := vs.zipIdx.map fun p => (p.2, BitVec.ofNat w p.1)

/-- A block configured for `n` ICs, on a chain of `n` zeroed ICs, with the arrays as listed. -/
def block (n : Nat) (dc pwm : List Nat) : State :=
  { State.reset with
    configured := true
    cfg := { chainLength := BitVec.ofNat 8 n, clk := 13, en := 10, lat := 9, dat := 11 }
    chain := List.replicate n zeroIC
    dcmem := cells 8 dc
    pwmmem := cells 16 pwm }

/-- The same with other array lengths. -/
def short (n : Nat) (dcLen pwmLen : Fin 65536) : State :=
  { block n [] [] with params := { State.reset.params with dcSize := dcLen, pwmSize := pwmLen } }

/-- A block straight from reset whose chain is known and whose enable line is active low or high. -/
def fresh (active : Level) : State :=
  { State.reset with chain := [zeroIC], params := { State.reset.params with enableActive := active } }

/-- A look at the next state, if there is one. -/
def look {α : Type} (f : State → α) : Host.Outcome State Fault Refusal → Option α
  | .next t => some (f t)
  | .fault _ => none
  | .refused _ => none

/-- The fault, if there is one. -/
def faultOf : Host.Outcome State Fault Refusal → Option Fault
  | .next _ => none
  | .fault f => some f
  | .refused _ => none

/-- The refusal, if there is one. -/
def refusalOf : Host.Outcome State Fault Refusal → Option Refusal
  | .next _ => none
  | .fault _ => none
  | .refused r => some r

/-- One step of `s` on the command word `w`. -/
def run (s : State) (w : Nat) : Host.Outcome State Fault Refusal := step (s.withFetchWord 64 w)

/-- The first `k` elements of DCMEM, as numbers. -/
def dcs (k : Nat) (t : State) : List Nat := (List.range k).map fun i => (t.dcElem i).toNat

/-- The first `k` elements of PWMMEM, as numbers. -/
def pwms (k : Nat) (t : State) : List Nat := (List.range k).map fun i => (t.pwmElem i).toNat

/-- Byte events. -/
def bytes (bs : List Byte) : List Event := bs.map .shiftOutByte

/-- The latch pulse at the default level. -/
def pulse : List Event := [.writeLine .lat true, .waitMicroseconds 2, .writeLine .lat false, .waitMicroseconds 2]

/-- Nine nines: the start state of the vectors of 2.4. -/
def nines : List Nat := [9, 9, 9, 9, 9, 9, 9, 9, 9]

/-! Well-formedness (R22) -/

theorem test_distinct_ids_accepted : (Instr.configure 3 13 10 9 11).wellFormed = true := by decide
theorem test_clk_en_refused : (Instr.configure 3 5 5 9 11).wellFormed = false := by decide
theorem test_clk_lat_refused : (Instr.configure 3 5 10 5 11).wellFormed = false := by decide
theorem test_clk_dat_refused : (Instr.configure 3 5 10 9 5).wellFormed = false := by decide
theorem test_en_lat_refused : (Instr.configure 3 13 5 5 11).wellFormed = false := by decide
theorem test_en_dat_refused : (Instr.configure 3 13 5 9 5).wellFormed = false := by decide
theorem test_lat_dat_refused : (Instr.configure 3 13 10 5 5).wellFormed = false := by decide

/-! Decoding (R88, R89, R90; vectors DE1 to DE8, EN6, EN7, SD6; R81, R82) -/

theorem test_decode_nop : decode (.command
    0b0000_000000000000000000000000000000000000000000000000000000000000#64) = .instr .nop := by decide
theorem test_decode_nop_reserved_bits : decode (.command 0x0123456789ABCDEF#64) = .instr .nop := by decide
theorem test_decode_reserved : decode (.command 0x9000000000000000#64) = .reserved 9 := by decide
theorem test_decode_all_ones : decode (.command 0xFFFFFFFFFFFFFFFF#64) = .reserved 15 := by decide
theorem test_decode_configure : decode (.command
    0b0001_00000000000000000000_00000011_00001101_00001010_00001001_00001011#64) =
    .instr (.configure 3 13 10 9 11) := by decide
theorem test_decode_configure_reserved_bits : decode (.command 0x1FFFFF030D0A090B#64) =
    .instr (.configure 3 13 10 9 11) := by decide
theorem test_decode_dc_ic : decode (.command
    0b0010_0000_00000010_0000000011111111_0000000010000001_0000000010000000#64) =
    .instr (.setDotCorrectionForIC 2 128 129 255) := by decide
theorem test_decode_dc_all : decode (.command
    0b0011_000000000000_0000000000000011_0000000000000010_0000000000000001#64) =
    .instr (.setDotCorrectionForAllICs 1 2 3) := by decide
theorem test_decode_dc_all_reserved_bits : decode (.command 0x3F00000300020001#64) =
    .instr (.setDotCorrectionForAllICs 1 2 3) := by decide
theorem test_decode_pwm_ic : decode (.command
    0b0100_0000_00000010_0000011111111111_0000010000000001_0000010000000000#64) =
    .instr (.setIntensityForIC 2 1024 1025 2047) := by decide
theorem test_decode_pwm_ic_reserved_bits : decode (.command 0x4F02000300020001#64) =
    .instr (.setIntensityForIC 2 1 2 3) := by decide
theorem test_decode_pwm_all : decode (.command 0x500004010400FFFF#64) =
    .instr (.setIntensityForAllICs 0xFFFF 0x0400 0x0401) := by decide
theorem test_decode_send_dc : decode (.command 0x6FFFFFFFFFFFFFFF#64) = .instr .sendDotCorrection := by decide
theorem test_decode_send_pwm : decode (.command 0x7000000000000000#64) = .instr .sendIntensity := by decide
theorem test_decode_enable : decode (.command 0x8FFFFFFFFFFFFFFF#64) = .instr (.setEnabled true) := by decide
theorem test_decode_disable : decode (.command 0x8000000000000002#64) = .instr (.setEnabled false) := by decide
theorem test_decode_wire_dc : decode (.packet 0b01_000_0000011_000_0000010_0_00_0000001#32) =
    .instr (.wireDC 1 2 3) := by decide
theorem test_decode_wire_pwm : decode (.packet 0b00_0000000011_0000000010_0000000001#32) =
    .instr (.wirePWM 1 2 3) := by decide
theorem test_decode_stray_address : decode (.packet 0x80000000#32) = .stray 0x80000000 := by decide
theorem test_decode_stray_clock_mode : decode (.packet 0x40000080#32) = .stray 0x40000080 := by decide

/-! Encoding (the words of 2.4 to 2.7, Program 1) -/

theorem test_encode_configure : encode (.configure 255 13 10 9 11) = .command 0x100000FF0D0A090B#64 := by decide
theorem test_encode_dc_ic : encode (.setDotCorrectionForIC 1 100 50 25) = .command 0x2001001900320064#64 := by decide
theorem test_encode_pwm_all : encode (.setIntensityForAllICs 300 600 900) = .command 0x500003840258012C#64 := by decide
theorem test_encode_enable : encode (.setEnabled true) = .command 0x8000000000000001#64 := by decide
/-- EP15. -/
theorem test_encode_intensity : encodeIntensity 300#16 600#16 900#16 = 0x3849612C#32 := by decide
/-- ED14. -/
theorem test_encode_dot_correction : encodeDotCorrection 10#8 20#8 30#8 = 0x41E0500A#32 := by decide

/-! Setters (2.4) -/

/-- SD2. -/
theorem test_set_dc_masks : look (dcs 9) (run (block 3 nines nines) 0x200200FF00810080) =
    some [9, 9, 9, 0, 1, 127, 9, 9, 9] := by decide
/-- SD5: `N + 1` is dropped. -/
theorem test_set_dc_drops : look (dcs 9) (run (block 3 nines nines) 0x2004000700060005) = some nines := by decide
/-- SA3. -/
theorem test_set_dc_all_masks : look (dcs 9) (run (block 3 nines nines) 0x3000010000000082) =
    some [2, 0, 0, 2, 0, 0, 2, 0, 0] := by decide
/-- SX1: only slots 0 to `3N-1`. -/
theorem test_set_dc_all_stops : look (dcs 9) (run (block 1 nines nines) 0x3000000300020001) =
    some [1, 2, 3, 9, 9, 9, 9, 9, 9] := by decide
/-- SI3: the last IC. -/
theorem test_set_pwm_last : look (pwms 9) (run (block 3 nines nines) 0x40030200000003FF) =
    some [9, 9, 9, 9, 9, 9, 1023, 0, 512] := by decide
/-- SI5: IC 0 is dropped. -/
theorem test_set_pwm_drops : look (pwms 9) (run (block 3 nines nines) 0x4000000700060005) = some nines := by decide
/-- SB3. -/
theorem test_set_pwm_all_masks : look (pwms 9) (run (block 3 nines nines) 0x500004010400FFFF) =
    some [1023, 0, 1, 1023, 0, 1, 1023, 0, 1] := by decide
/-- SB3: the other array is the same. -/
theorem test_set_pwm_all_keeps_dc : look (dcs 9) (run (block 3 nines nines) 0x500004010400FFFF) = some nines := by
  decide
/-- SX2. -/
theorem test_short_array_faults : faultOf (run (short 3 6 750) 0x2003000700060005) =
    some (.arrayBounds .dcmem 6 [] []) := by decide
/-- SA1 on an array of four elements (R111, U1): the writes made before the fault stand. -/
theorem test_writes_before_the_fault_stand : faultOf (run (short 3 4 750) 0x3000000300020001) =
    some (.arrayBounds .dcmem 4 [(0, 1), (1, 2), (2, 3), (3, 1)] []) := by decide

/-! Sends (2.7) and packets -/

/-- TX3. -/
theorem test_send_dc_order : look State.trace (run (block 3 [1, 1, 1, 5, 6, 7, 10, 20, 30] []) 0x6000000000000000) =
    some (bytes [0x41, 0xE0, 0x50, 0x0A, 0x40, 0x70, 0x18, 0x05, 0x40, 0x10, 0x04, 0x01] ++ pulse) := by decide
/-- TX5: elements out of range are masked. -/
theorem test_send_dc_masks : look State.trace (run (block 2 [200, 255, 128, 127, 0, 0] []) 0x6000000000000000) =
    some (bytes [0x40, 0x00, 0x00, 0x7F, 0x40, 0x01, 0xFC, 0x48] ++ pulse) := by decide
/-- TX4. -/
theorem test_send_pwm_order :
    look State.trace (run (block 3 [] [1, 2, 3, 0, 1, 1023, 1023, 0, 512]) 0x7000000000000000) =
      some (bytes [0x20, 0x00, 0x03, 0xFF, 0x3F, 0xF0, 0x04, 0x00, 0x00, 0x30, 0x08, 0x01] ++ pulse) := by decide
/-- TX7. -/
theorem test_send_short_array : faultOf (run (short 3 750 8) 0x7000000000000000) =
    some (.arrayBounds .pwmmem 8 [] []) := by decide
/-- Program 1's receiver: IC 1 and IC 2 hold (1, 2, 3). -/
theorem test_receiver_dc : look (fun t => t.chain.map fun ic => (ic.dc0, ic.dc1, ic.dc2))
    (run (block 2 [1, 2, 3, 1, 2, 3] []) 0x6000000000000000) = some [(1, 2, 3), (1, 2, 3)] := by decide +kernel
/-- Program 2's receiver, cut to its first two ICs. -/
theorem test_receiver_pwm : look (fun t => t.chain.map fun ic => (ic.pwm0, ic.pwm1, ic.pwm2))
    (run (block 2 [] [1, 2, 3, 0, 1, 1023]) 0x7000000000000000) = some [(1, 2, 3), (0, 1, 1023)] := by decide +kernel
/-- A window with address 01 and a clock-mode bit set is refused (U5). -/
theorem test_receiver_refuses : (latchIC 0 1 { zeroIC with sr := 0x40000080 }).refused = some 0x40000080 := by decide
/-- ED11: the bytes of a packet stepped alone. -/
theorem test_wire_dc : look (fun t => (t.pkt, t.trace)) (step ((block 1 [] []).withFetchWord 32 0x47F00040)) =
    some (0x47F00040, bytes [0x47, 0xF0, 0x00, 0x40]) := by decide
/-- EP16. -/
theorem test_wire_pwm : look (fun t => (t.pkt, t.trace)) (step ((block 1 [] []).withFetchWord 32 0x1904B0C8)) =
    some (0x1904B0C8, bytes [0x19, 0x04, 0xB0, 0xC8]) := by decide
/-- PB1: the bits of a byte on the data line. -/
theorem test_pins_of_byte : ((Event.shiftOutByte 0x47).pins.filter fun w => w.1 = .dat).map Prod.snd =
    [false, true, false, false, false, true, true, true] := by decide
/-- 2.9: after five micro-steps of a Send on two ICs the sequencer loads IC 1. -/
theorem test_walk_second_load :
    look (fun t => (t.seq.phase, t.seq.ic)) (microSteps 5 (beginSend .pwmmem (block 2 [] [1, 2, 3, 0, 1, 1023]))) =
      some (.load, 1) := by decide

/-! Configure (2.5), SetEnabled (2.6), Nop (R182), refusals (R202) -/

/-- CF5 and CF7: a count of 0 becomes 250, and an active-low enable line idles high. -/
theorem test_configure_from_reset : look (fun t => (t.cfg.chainLength, t.trace)) (run (fresh false) 0x100000000D0A090B) =
    some (250, [.writeLine .clk false, .writeLine .en true, .writeLine .lat false, .writeLine .dat false]) := by decide
/-- CF6: the configuration is immutable. -/
theorem test_configure_again : look (fun t => (t.cfg, t.trace)) (run (block 1 [] []) 0x1000000701020304) =
    some ({ chainLength := 1, clk := 13, en := 10, lat := 9, dat := 11 }, []) := by decide
/-- CF8. -/
theorem test_configure_collision : refusalOf (run (fresh true) 0x100000030505090B) =
    some (.lineIdCollision 5 5 9 11) := by decide
/-- EN1. -/
theorem test_enable : look (fun t => (t.trace, t.enState)) (run (block 1 [] []) 0x8000000000000001) =
    some ([.writeLine .en true], .enabled) := by decide
/-- EN7: only bit 0 is read. -/
theorem test_disable : look (fun t => (t.trace, t.enState)) (run (block 1 [] []) 0x8000000000000002) =
    some ([.writeLine .en false], .disabled) := by decide
/-- R182: Nop is accepted before Configure. -/
theorem test_nop_unconfigured : look (fun t => (t.configured, t.port)) (run (fresh true) 0) = some (false, []) := by
  decide
/-- R182: so is a reserved opcode. -/
theorem test_reserved_unconfigured :
    look (fun t => (t.configured, t.port)) (run (fresh true) 0xF000000000000000) = some (false, []) := by decide
/-- R23, R202. -/
theorem test_unconfigured_refused : refusalOf (run (fresh true) 0x6000000000000000) =
    some (.unconfigured .sendDotCorrection) := by decide
/-- U5: a word on the link that is no packet. -/
theorem test_stray_refused : refusalOf (step ((block 1 [] []).withFetchWord 32 0xC0000000)) =
    some (.strayPacket 0xC0000000) := by decide

/-! Witnesses: concrete operands and states that meet the hypotheses of each statement -/

theorem witness_EncodeDecodeClearsReservedBits :
    decode (.command 0x4F02000300020001#64) = .instr (.setIntensityForIC 2 1 2 3) ∧
    decode (.packet 0x40300801#32) = .instr (.wireDC 1 2 3) ∧
    decode (.packet 0x00300801#32) = .instr (.wirePWM 1 2 3) := by decide

theorem witness_CommandWordsDecodeByOpcode :
    9 ≤ (opcodeField 0x9000000000000000#64).toNat ∧ (opcodeField 0x8000000000000000#64).toNat < 9 ∧
    opcodeField 0x8FFFFFFFFFFFFFFF#64 = opcodeField 0x8000000000000001#64 ∧
    0x8FFFFFFFFFFFFFFF#64 &&& namedBits 8 = 0x8000000000000001#64 &&& namedBits 8 := by decide

theorem witness_PacketWordsAreTheTwoFormats :
    0x47F1FC7F#32 &&& 0xF80E0380#32 = 0x40000000#32 ∧ (0x3FFFFFFF#32).extractLsb' 30 2 = 0#2 ∧
    decode (.packet 0x48000000#32) = .stray 0x48000000#32 := by decide

theorem witness_EncodeIntensityRule : (0x3FFFFFFF#32).toNat ≤ 0x3FFFFFFF ∧ (0#32).toNat ≤ 0x3FFFFFFF := by decide

theorem witness_PacketsDetermineMaskedValues : (0x00300801#32).extractLsb' 30 2 = 0#2 := by decide

/-- Arrays just long enough, and one element too short, at the first, last and no IC. -/
theorem witness_SetDotCorrectionForICRule :
    (short 3 9 9).configured = true ∧ (short 3 8 8).configured = true ∧
    ((0#8).toNat < 1 ∧ (short 3 9 9).cfg.chainLength.toNat < (4#8).toNat) ∧
    (1 ≤ (1#8).toNat ∧ (3#8).toNat ≤ (short 3 9 9).cfg.chainLength.toNat) ∧
    3 * (3#8).toNat ≤ (short 3 9 9).params.dcLen ∧ (short 3 8 8).params.dcLen < 3 * (3#8).toNat := by decide

theorem witness_SetIntensityForICRule :
    (short 3 9 9).configured = true ∧ (short 3 8 8).configured = true ∧
    ((0#8).toNat < 1 ∧ (short 3 9 9).cfg.chainLength.toNat < (4#8).toNat) ∧
    (1 ≤ (1#8).toNat ∧ (3#8).toNat ≤ (short 3 9 9).cfg.chainLength.toNat) ∧
    3 * (3#8).toNat ≤ (short 3 9 9).params.pwmLen ∧ (short 3 8 8).params.pwmLen < 3 * (3#8).toNat := by decide

theorem witness_SetDotCorrectionForAllICsRule :
    (short 3 9 9).configured = true ∧ (short 3 8 8).configured = true ∧
    3 * (short 3 9 9).cfg.chainLength.toNat ≤ (short 3 9 9).params.dcLen ∧
    (short 3 8 8).params.dcLen < 3 * (short 3 8 8).cfg.chainLength.toNat := by decide

theorem witness_SetIntensityForAllICsRule :
    (short 3 9 9).configured = true ∧ (short 3 8 8).configured = true ∧
    3 * (short 3 9 9).cfg.chainLength.toNat ≤ (short 3 9 9).params.pwmLen ∧
    (short 3 8 8).params.pwmLen < 3 * (short 3 8 8).cfg.chainLength.toNat := by decide

theorem witness_SettersAreIdempotent :
    isSetterOf .dcmem (.setDotCorrectionForIC 2 1 2 3) = true ∧ (block 3 nines nines).dcmem.wf ∧
    (block 3 nines nines).pwmmem.wf ∧
    ∃ t, exec (.setDotCorrectionForIC 2 1 2 3) (block 3 nines nines) = .next t :=
  ⟨by decide, by decide, by decide, _, rfl⟩

/-- The same block with other arrays and enable state. -/
def otherArrays (s : State) : State := { s with enState := .enabled, dcmem := cells 8 [5], pwmmem := cells 16 [7, 7] }

theorem witness_SettersDoNotReadWhatTheyWrite :
    isSetterOf .pwmmem (.setIntensityForAllICs 1 2 3) = true ∧
    (∃ t, exec (.setIntensityForAllICs 1 2 3) (block 2 nines nines) = .next t) ∧
    (∃ d, exec (.setIntensityForAllICs 1 2 3) (short 3 9 8) = .fault (.arrayBounds .pwmmem 8 [] d)) ∧
    exec (.setIntensityForAllICs 1 2 3) (fresh true) = .refused (.unconfigured (.setIntensityForAllICs 1 2 3)) ∧
    otherArrays (short 3 9 8) = { short 3 9 8 with
      enState := (otherArrays (short 3 9 8)).enState
      dcmem := (otherArrays (short 3 9 8)).dcmem
      pwmmem := (otherArrays (short 3 9 8)).pwmmem } := ⟨by decide, ⟨_, rfl⟩, ⟨_, rfl⟩, rfl, rfl⟩

theorem witness_SettersStoreLegalValues :
    isSetterOf .dcmem (.setDotCorrectionForAllICs 130 0 256) = true ∧
    ∃ t, exec (.setDotCorrectionForAllICs 130 0 256) (block 2 nines nines) = .next t := ⟨by decide, _, rfl⟩

theorem witness_SendDotCorrectionRule :
    (short 3 9 9).configured = true ∧ 3 * (short 3 9 9).cfg.chainLength.toNat ≤ (short 3 9 9).params.dcLen ∧
    (short 3 8 8).configured = true ∧ (short 3 8 8).params.dcLen < 3 * (short 3 8 8).cfg.chainLength.toNat ∧
    1 ≤ (short 3 9 9).cfg.chainLength.toNat := by decide

theorem witness_SendIntensityRule :
    (short 3 9 9).configured = true ∧ 3 * (short 3 9 9).cfg.chainLength.toNat ≤ (short 3 9 9).params.pwmLen ∧
    (short 3 8 8).configured = true ∧ (short 3 8 8).params.pwmLen < 3 * (short 3 8 8).cfg.chainLength.toNat ∧
    1 ≤ (short 3 9 9).cfg.chainLength.toNat := by decide

theorem witness_WirePacketsGoOut : (block 1 [] []).configured = true := by decide

theorem witness_SendEventCount : (∃ t, exec (sendOf .dcmem) (block 2 nines nines) = .next t) ∧
    ∃ t, exec (sendOf .pwmmem) (block 2 nines nines) = .next t := ⟨⟨_, rfl⟩, _, rfl⟩

theorem witness_SendLeavesLinesAtRest :
    1 ≤ (block 1 nines nines).cfg.chainLength.toNat ∧
    (∃ t, exec (sendOf .dcmem) (block 1 nines nines) = .next t) ∧
    ∃ t, exec (sendOf .pwmmem) (block 1 nines nines) = .next t := ⟨by decide, ⟨_, rfl⟩, _, rfl⟩

theorem witness_SendDotCorrectionReachesTheChain :
    (block 2 nines nines).chain.length = (block 2 nines nines).cfg.chainLength.toNat ∧
    (∀ ic ∈ (block 2 nines nines).chain, ic.refused = none) ∧ (block 2 nines nines).lvl.clk = false ∧
    (block 2 nines nines).lvl.lat = (!(block 2 nines nines).params.latchActive) ∧
    (block 2 nines nines).chain[1]? = some zeroIC ∧
    ∃ t, exec .sendDotCorrection (block 2 nines nines) = .next t :=
  ⟨by decide, by decide, by decide, by decide, by decide, _, rfl⟩

theorem witness_SendIntensityReachesTheChain :
    (block 2 nines nines).chain.length = (block 2 nines nines).cfg.chainLength.toNat ∧
    (∀ ic ∈ (block 2 nines nines).chain, ic.refused = none) ∧ (block 2 nines nines).lvl.clk = false ∧
    (block 2 nines nines).lvl.lat = (!(block 2 nines nines).params.latchActive) ∧
    (block 2 nines nines).chain[0]? = some zeroIC ∧
    ∃ t, exec .sendIntensity (block 2 nines nines) = .next t :=
  ⟨by decide, by decide, by decide, by decide, by decide, _, rfl⟩

/-- Four ICs about to latch: a dot-correction packet, an intensity packet, a stray window, and one already refused. -/
def latching : State :=
  { block 4 [] [] with
    chain := [{ zeroIC with sr := 0x40300801 }, { zeroIC with sr := 0x00300801 }, { zeroIC with sr := 0x80000000 },
      { zeroIC with refused := some 0x80000000 }] }

theorem witness_LatchLoadsOrRefuses :
    latching.lvl.lat = (!latching.params.latchActive) ∧
    latching.chain[0]? = some { zeroIC with sr := 0x40300801 } ∧
    decode (.packet 0x40300801) = .instr (.wireDC 1 2 3) ∧ zeroIC.refused = none ∧
    latching.chain[1]? = some { zeroIC with sr := 0x00300801 } ∧
    decode (.packet 0x00300801) = .instr (.wirePWM 1 2 3) ∧
    latching.chain[2]? = some { zeroIC with sr := 0x80000000 } ∧
    decode (.packet 0x80000000) = .stray 0x80000000 ∧
    latching.chain[3]? = some { zeroIC with refused := some 0x80000000 } ∧
    ({ zeroIC with refused := some 0x80000000 } : ChainIC).refused ≠ none ∧
    ∃ a b c d, (writeLine .lat latching.params.latchActive latching).chain = [a, b, c, d] :=
  ⟨by decide, by decide, by decide, by decide, by decide, by decide, by decide, by decide, by decide, by decide,
    _, _, _, _, rfl⟩

theorem witness_MatchedChainRefusesNothing :
    (block 2 nines nines).configured = true ∧
    (block 2 nines nines).chain.length = (block 2 nines nines).cfg.chainLength.toNat ∧
    (∀ ic ∈ (block 2 nines nines).chain, ic.refused = none) ∧ (block 2 nines nines).lvl.clk = false ∧
    (block 2 nines nines).lvl.lat = (!(block 2 nines nines).params.latchActive) ∧
    ∃ t, exec .sendIntensity (block 2 nines nines) = .next t :=
  ⟨by decide, by decide, by decide, by decide, by decide, _, rfl⟩

theorem witness_SendIsItsMicroSteps :
    (block 2 nines nines).configured = true ∧ 1 ≤ (block 2 nines nines).cfg.chainLength.toNat := by decide

/-- A state in the middle of a Send. -/
def shifting : State :=
  { block 2 nines nines with seq := { phase := .shift, space := .dcmem, ic := 2, byte := 3, bit := 7 } }

theorem witness_ShiftMicroStepIsEightBitSteps : shifting.seq.phase = .shift ∧ shifting.seq.bit = 7 := by decide

theorem witness_RepeatedSendSendsTheSame :
    (∃ t, exec (sendOf .dcmem) (block 2 nines nines) = .next t) ∧
    1 ≤ (block 2 nines nines).cfg.chainLength.toNat ∧
    (block 2 nines nines).chain.length = (block 2 nines nines).cfg.chainLength.toNat ∧
    (∀ ic ∈ (block 2 nines nines).chain, ic.refused = none) ∧ (block 2 nines nines).lvl.clk = false ∧
    (block 2 nines nines).lvl.lat = (!(block 2 nines nines).params.latchActive) :=
  ⟨⟨_, rfl⟩, by decide, by decide, by decide, by decide, by decide⟩

theorem witness_BroadcastThenSendSendsOnePacketToAll :
    (short 3 9 9).configured = true ∧ (short 3 9 9).ArraysFit := by decide

theorem witness_SetEnabledRule : (block 1 [] []).configured = true := by decide

theorem witness_OnlySetEnabledEnables :
    (∃ t, exec (.setEnabled true) (block 1 [] []) = .next t) ∧
    (fresh true).configured = false ∧ (∃ t, exec (.configure 3 13 10 9 11) (fresh true) = .next t) ∧
    (block 1 [] []).configured = true ∧ (∃ t, exec (.configure 3 13 10 9 11) (block 1 [] []) = .next t) ∧
    ∃ t, exec .sendIntensity (block 1 nines nines) = .next t :=
  ⟨⟨_, rfl⟩, by decide, ⟨_, rfl⟩, by decide, ⟨_, rfl⟩, _, rfl⟩

theorem witness_ConfigureConstructs : (fresh true).configured = false ∧ idsDistinct 13 10 9 11 = true := by decide

theorem witness_ConfigureIsWriteOnce :
    idsDistinct 13 10 9 11 = true ∧ (block 1 [] []).configured = true ∧ idsDistinct 5 5 9 11 = false := by decide

/-- A block with one pending input. -/
def withInput (s : State) (inp : Input) : State := { s with port := [inp] }

theorem witness_NopAndReservedOpcodesDoNothing :
    (withInput (fresh true) (.command 0x9000000000000000)).seq.phase = .idle ∧
    (withInput (fresh true) (.command 0x9000000000000000)).port = [.command 0x9000000000000000] ∧
    9 ≤ (0x9000000000000000#64).toNat / 2 ^ 60 := by decide

theorem witness_UnconfiguredBlockRefuses :
    (fresh true).configured = false ∧ Instr.sendIntensity ≠ .nop ∧
    ∀ a b c d e, Instr.sendIntensity ≠ .configure a b c d e := ⟨by decide, by decide, nofun⟩

theorem witness_PriorityOfConditions :
    idsDistinct 5 5 9 11 = false ∧ (fresh true).configured = false ∧ isSetterOf .dcmem (.setDotCorrectionForIC 0 1 2 3) ∧
    (short 3 8 8).configured = true ∧ (0#8).toNat = 0 ∧ (short 3 8 8).cfg.chainLength.toNat < (4#8).toNat ∧
    (short 3 8 8).params.dcLen < 3 * (short 3 8 8).cfg.chainLength.toNat ∧
    (short 3 8 8).params.pwmLen < 3 * (short 3 8 8).cfg.chainLength.toNat := by decide

theorem block_inv : (block 2 nines nines).Inv :=
  ⟨by decide, by decide, by decide, by decide, by decide, by decide, by decide, by decide, by decide, by decide⟩

theorem witness_StepKeepsTheInvariant :
    (withInput (block 2 nines nines) (.command 0x6000000000000000)).Inv ∧
    ∃ t, step (withInput (block 2 nines nines) (.command 0x6000000000000000)) = .next t :=
  ⟨⟨by decide, by decide, by decide, by decide, by decide, by decide, by decide, by decide, by decide, by decide⟩,
    _, rfl⟩

theorem witness_StepRunsTheDecodedInstruction :
    (withInput (block 1 [] []) (inputOf (.command 0x8000000000000001))).seq.phase = .idle ∧
    (withInput (block 1 [] []) (inputOf (.command 0x8000000000000001))).port =
      [inputOf (.command 0x8000000000000001)] ∧
    decode (.command 0x8000000000000001) = .instr (.setEnabled true) := by decide

theorem witness_FetchedTableWordRuns :
    decodeTableWord 64 0x6000000000000000 = some .sendDotCorrection ∧
    decodeTableWord 32 0x40000000 = some (.wireDC 0 0 0) := by decide

theorem witness_StrayPacketWordsAreRefused :
    (withInput (fresh true) (.packet 0x40000080)).seq.phase = .idle ∧
    (withInput (fresh true) (.packet 0x40000080)).port = [.packet 0x40000080] ∧
    ¬ 0x40000080#32 &&& 0xF80E0380#32 = 0x40000000#32 ∧ ¬ (0x40000080#32).extractLsb' 30 2 = 0#2 := by decide

theorem witness_StepWaitsOrAdvancesTheSend :
    (fresh true).seq.phase = .idle ∧ (fresh true).port = [] ∧ shifting.seq.phase ≠ .idle ∧
    ∃ t, step shifting = .next t := ⟨by decide, by decide, by decide, _, rfl⟩

theorem witness_HostWritesOneElement :
    (withInput (short 1 3 3) (.writeDC 2 200)).seq.phase = .idle ∧
    (withInput (short 1 3 3) (.writeDC 2 200)).port = [.writeDC 2 200] ∧ 2 < (short 1 3 3).params.dcLen ∧
    (withInput (short 1 3 3) (.writeDC 3 200)).port = [.writeDC 3 200] ∧ (short 1 3 3).params.dcLen ≤ 3 ∧
    (withInput (short 1 3 3) (.writePWM 2 200)).port = [.writePWM 2 200] ∧ 2 < (short 1 3 3).params.pwmLen ∧
    (withInput (short 1 3 3) (.writePWM 3 200)).port = [.writePWM 3 200] ∧ (short 1 3 3).params.pwmLen ≤ 3 := by
  decide

theorem witness_ResetsAreIndependent :
    (withInput (block 1 [] []) .reset).seq.phase = .idle ∧ (withInput (block 1 [] []) .reset).port = [.reset] ∧
    (withInput (block 1 [] []) .resetChain).seq.phase = .idle ∧
    (withInput (block 1 [] []) .resetChain).port = [.resetChain] := by decide

theorem witness_ConfigurationIsImmutable :
    (∃ t, step (withInput (block 1 [] []) (.command 0x1000000701020304)) = .next t) ∧
    (withInput (block 1 [] []) (.command 0x1000000701020304)).configured = true ∧
    (withInput (block 1 [] []) (.command 0x1000000701020304)).port.head? ≠ some .reset := ⟨⟨_, rfl⟩, by decide, by decide⟩

/-- Every constructor is well-formed for some operands, so the completion statement speaks of all eleven. -/
theorem witness_EveryInstructionCompletes :
    (short 3 9 9).configured = true ∧ (short 3 9 9).ArraysFit ∧
    ∀ i ∈ [Instr.nop, .configure 3 13 10 9 11, .setDotCorrectionForIC 1 0 0 0, .setDotCorrectionForAllICs 0 0 0,
      .setIntensityForIC 1 0 0 0, .setIntensityForAllICs 0 0 0, .sendDotCorrection, .sendIntensity, .setEnabled true,
      .wireDC 1 2 3, .wirePWM 1 2 3], i.wellFormed = true := by decide

theorem witness_OnlyShortArraysFault : exec .sendIntensity (short 3 750 8) = .fault (.arrayBounds .pwmmem 8 [] []) := rfl

theorem witness_BlockReadsOnlyConfigurationAndArrays :
    SameToTheBlock (block 2 nines nines) { block 2 nines nines with pkt := 7, enState := .enabled, chain := [] } :=
  ⟨rfl, rfl, rfl, rfl, rfl, rfl⟩

theorem witness_UnsetConfigurationIsNotRead : (fresh true).configured = false := by decide

theorem witness_TraceExplainsTheLines : ∃ t, exec .sendIntensity (block 1 nines nines) = .next t := ⟨_, rfl⟩

theorem witness_ArraysAreSeparate :
    (∃ t, exec .sendIntensity (block 1 nines nines) = .next t) ∧ isSetterOf .dcmem .sendIntensity = false ∧
    isSetterOf .pwmmem .sendIntensity = false := ⟨⟨_, rfl⟩, by decide, by decide⟩

end Sys2Proof.Tests
end

/-! The statements of 10_state.md: what a step can do, what keeps the invariant, what the block reads, and how the
trace explains the lines and the chain. -/

namespace Sys2Proof.Machine

/-! ### The micro-steps of a Send -/

/-- Only a write of the enable line moves it (R183). -/
theorem emit_lvl_en {e : Event} (he : ∀ v, e ≠ .writeLine .en v) (s : State) : (emit e s).lvl.en = s.lvl.en := by
  cases e with
  | writeLine line v =>
    cases line with
    | en => exact absurd rfl (he v)
    | clk => rfl
    | lat => rfl
    | dat => rfl
  | shiftOutByte b => rw [emit_lvl, shiftOutByte_lvl]
  | waitMicroseconds n => rfl

/-- After a byte the sequencer stands elsewhere (R154). -/
theorem afterByte_ne {q : Seq} (hq : q.phase = .shift) : afterByte q ≠ q := by
  intro h
  unfold afterByte at h
  split at h
  · have hb : q.byte - 1 = q.byte := congrArg Seq.byte h
    bv_omega
  · split at h
    · exact absurd (congrArg Seq.phase h) (by simp [hq])
    · exact absurd (congrArg Seq.phase h) (by simp [hq])

/-- A change of phase moves the sequencer. -/
theorem seq_ne_of_phase {q q' : Seq} (h : q.phase ≠ q'.phase) : q ≠ q' := fun hq => h (congrArg Seq.phase hq)

/-- The two ways a micro-step can advance a Send (R154). -/
inductive MicroCase (s : State) : State → Prop where
  /-- A packet is loaded into PKT. -/
  | load (p : Packet) (q : Seq) (hq : q ≠ s.seq) : MicroCase s (withSeq q (withPkt p s))
  /-- An event of the Send goes out; none is on the enable line. -/
  | event (e : Event) (q : Seq) (hq : q ≠ s.seq) (he : ∀ v, e ≠ .writeLine .en v) :
      MicroCase s (withSeq q (emit e s))

/-- Everything a micro-step of a Send in progress can do when it answers a next state. -/
theorem microStep_cases {s t : State} (hp : s.seq.phase ≠ .idle) (h : microStep s = .next t) : MicroCase s t := by
  unfold microStep at h
  split at h
  case h_1 hidle => exact absurd hidle hp
  case h_2 hload =>
    rw [loadPacket_eq] at h
    split at h
    · cases h
      exact .load _ _ (seq_ne_of_phase (by simp [hload]))
    · cases h
  case h_3 hshift => cases h; exact .event _ _ (afterByte_ne hshift) nofun
  all_goals
    rename_i hphase
    cases h
    exact .event _ _ (seq_ne_of_phase (by simp [hphase])) nofun

/-- In a Send in progress a step is its next micro-step (R157). -/
theorem step_of_not_idle {s : State} (hp : s.seq.phase ≠ .idle) : step s = microStep s := by
  unfold step
  split
  · exact absurd ‹_› hp
  all_goals rfl

/-- Between Sends a step takes the next input (R60). -/
theorem step_of_idle {s : State} (hp : s.seq.phase = .idle) : step s = takeInput s := by
  simp [step, hp]

/-- Between Sends a step takes the head of the port (R60, R64). -/
theorem step_of_port {s : State} {inp : Input} {rest : List Input} (hp : s.seq.phase = .idle)
    (hport : s.port = inp :: rest) : step s = accept inp { s with port := rest } := by
  rw [step_of_idle hp, takeInput, hport]

/-- With nothing pending, the block waits (R34). -/
theorem step_of_port_nil {s : State} (hp : s.seq.phase = .idle) (hport : s.port = []) : step s = .next s := by
  rw [step_of_idle hp, takeInput, hport]

/-- Settles O46: by the two ways a micro-step can advance a Send. -/
theorem stepWaitsOrAdvancesTheSend : Obligations.StepWaitsOrAdvancesTheSend := by
  refine ⟨fun s => step_of_port_nil, fun s hp => ⟨step_of_not_idle hp, fun t h => ?_⟩⟩
  rw [step_of_not_idle hp] at h
  cases microStep_cases hp h with
  | load p q hq => exact ⟨hq, rfl, rfl, rfl, rfl, rfl, rfl, rfl⟩
  | event e q hq he => exact ⟨hq, by simp, by simp, by simp, by simp, by simp, by simp, emit_lvl_en he s⟩

/-! ### What a step can do -/

/-- The ways a step can answer a next state. -/
inductive StepCase (s : State) : State → Prop where
  /-- Nothing is pending. -/
  | wait : StepCase s s
  /-- A reserved opcode is taken and ignored (R90). -/
  | ignore (rest : List Input) : StepCase s { s with port := rest }
  /-- An instruction is taken and run. -/
  | run (i : Instr) (rest : List Input) {t : State} (h : exec i { s with port := rest } = .next t) : StepCase s t
  /-- The host writes an element of DCMEM (R31). -/
  | hostDC (i : Nat) (v : BitVec 8) (rest : List Input) (hi : i < s.params.dcLen) :
      StepCase s { s with port := rest, dcmem := s.dcmem.set i v }
  /-- The host writes an element of PWMMEM (R31). -/
  | hostPWM (i : Nat) (v : BitVec 16) (rest : List Input) (hi : i < s.params.pwmLen) :
      StepCase s { s with port := rest, pwmmem := s.pwmmem.set i v }
  /-- The controller is reset (R230). -/
  | reset (rest : List Input) (hport : s.port = .reset :: rest) : StepCase s (resetController { s with port := rest })
  /-- The chain is power-cycled (R231). -/
  | resetChain (rest : List Input) : StepCase s (resetChain { s with port := rest })
  /-- A Send in progress advances (R157). -/
  | micro {t : State} (hp : s.seq.phase ≠ .idle) (h : MicroCase s t) : StepCase s t

/-- A decoded word that answers a next state is an instruction that does, or is ignored. -/
theorem runDecoded_next {d : Decoded} {s t : State} (h : runDecoded d s = .next t) :
    (∃ i, exec i s = .next t) ∨ t = s := by
  cases d with
  | instr i => exact .inl ⟨i, h⟩
  | reserved op => cases h; exact .inr rfl
  | stray p => cases h

/-- A word at the head of the port is run or ignored. -/
theorem stepCase_of_runDecoded {d : Decoded} {s t : State} {rest : List Input}
    (h : runDecoded d { s with port := rest } = .next t) : StepCase s t := by
  obtain ⟨i, hi⟩ | rfl := runDecoded_next h
  · exact .run i rest hi
  · exact .ignore rest

/-- Everything a step can do when it answers a next state. -/
theorem step_cases {s t : State} (h : step s = .next t) : StepCase s t := by
  by_cases hp : s.seq.phase = .idle
  · cases hport : s.port with
    | nil => rw [step_of_port_nil hp hport] at h; cases h; exact .wait
    | cons inp rest =>
      rw [step_of_port hp hport] at h
      cases inp with
      | command w => exact stepCase_of_runDecoded h
      | packet p => exact stepCase_of_runDecoded h
      | writeDC i v =>
        obtain ⟨m, hm, rfl⟩ := setDCMem_next h
        obtain ⟨hi, rfl⟩ := writeElem_ok hm
        exact .hostDC i v rest hi
      | writePWM i v =>
        obtain ⟨m, hm, rfl⟩ := setPWMMem_next h
        obtain ⟨hi, rfl⟩ := writeElem_ok hm
        exact .hostPWM i v rest hi
      | reset => cases h; exact .reset rest hport
      | resetChain => cases h; exact .resetChain rest
  · rw [step_of_not_idle hp] at h
    exact .micro hp (microStep_cases hp h)

/-! ### The invariant -/

/-- The invariant says nothing of the pending inputs. -/
theorem State.Inv.withPort {s : State} (h : s.Inv) (rest : List Input) : State.Inv { s with port := rest } :=
  ⟨h.resting, h.length, h.distinct, h.enable, h.lines, h.silent, h.dcWf, h.pwmWf, h.dcWithin, h.pwmWithin⟩

/-- A good DCMEM may take the place of the old one. -/
theorem State.Inv.withDC {s : State} (h : s.Inv) {m : Mem 8} (hm : m.Good s.params.dcLen) :
    State.Inv { s with dcmem := m } :=
  ⟨h.resting, h.length, h.distinct, h.enable, h.lines, h.silent, hm.1, h.pwmWf, hm.2, h.pwmWithin⟩

/-- A good PWMMEM may take the place of the old one. -/
theorem State.Inv.withPWM {s : State} (h : s.Inv) {m : Mem 16} (hm : m.Good s.params.pwmLen) :
    State.Inv { s with pwmmem := m } :=
  ⟨h.resting, h.length, h.distinct, h.enable, h.lines, h.silent, h.dcWf, hm.1, h.dcWithin, hm.2⟩

theorem State.Inv.dcGood {s : State} (h : s.Inv) : s.dcmem.Good s.params.dcLen := ⟨h.dcWf, h.dcWithin⟩

theorem State.Inv.pwmGood {s : State} (h : s.Inv) : s.pwmmem.Good s.params.pwmLen := ⟨h.pwmWf, h.pwmWithin⟩

/-- A configured block that uses the link keeps the invariant when it leaves clock and latch at rest (R153) and the
enable line in agreement with ENSTATE (R183). -/
theorem State.Inv.withLink {s : State} (h : s.Inv) (hc : s.configured = true) {en : EnState} {l : Levels} {p : Packet}
    {q : Seq} {es : List Event} {ch : List ChainIC} {d : Nat} (hq : q.phase = .idle)
    (hen : l.en = s.params.enableActive ↔ en = .enabled)
    (hl : l.clk = Config.clkIdle ∧ l.lat = !s.params.latchActive) :
    State.Inv { s with enState := en, lvl := l, pkt := p, seq := q, trace := es, chain := ch, draws := d } :=
  ⟨hq, h.length, h.distinct, fun _ => hen, fun _ => hl, fun hn => absurd (hc.symm.trans hn) (by decide), h.dcWf,
    h.pwmWf, h.dcWithin, h.pwmWithin⟩

/-- What transmitting a packet leaves alone (R152). -/
theorem transmitPacket_frame (p : Packet) (s : State) :
    transmitPacket p s =
      { s with pkt := p, trace := (transmitPacket p s).trace, lvl := (transmitPacket p s).lvl,
               chain := (transmitPacket p s).chain, draws := (transmitPacket p s).draws } := by
  simpa using transmitMany_frame [p] s

theorem transmitPacket_keeps_inv {s : State} (h : s.Inv) (hc : s.configured = true) (p : Packet) :
    (transmitPacket p s).Inv := by
  have hl : (transmitPacket p s).lvl = { s.lvl with clk := false, dat := p.getLsbD 0 } := emitPacket_lvl p _
  rw [transmitPacket_frame, hl]
  exact h.withLink hc h.resting (h.enable hc) ⟨rfl, (h.lines hc).2⟩

theorem sent_keeps_inv {s : State} (h : s.Inv) (hc : s.configured = true) (space : Space) : (sent space s).Inv := by
  obtain ⟨-, -, hclk⟩ := transmitMany_chain (packetsDown space s s.count) s (h.lines hc).1
  obtain ⟨hen, -⟩ := transmitMany_en_lat (packetsDown space s s.count) s
  rw [sent_frame, sent_lvl]
  exact h.withLink hc rfl (by simpa [hen] using h.enable hc) ⟨hclk, rfl⟩

/-- SetEnabled drives the enable line active exactly when it enables (R180). -/
theorem enableLevel_eq_active_iff (p : Params) (enabled : Bool) :
    enableLevel p enabled = p.enableActive ↔ enableState enabled = .enabled := by
  cases enabled <;> simp [enableLevel, enableState]

theorem enabledTo_keeps_inv {s : State} (h : s.Inv) (hc : s.configured = true) (enabled : Bool) :
    (enabledTo enabled s).Inv := by
  rw [enabledTo_eq]
  exact h.withLink hc h.resting (enableLevel_eq_active_iff s.params enabled) (h.lines hc)

theorem construct_keeps_inv {s : State} (h : s.Inv) {ics clk en lat dat : BitVec 8}
    (hd : idsDistinct clk en lat dat = true) : (construct ics clk en lat dat s).Inv := by
  rw [construct, driveIdle_eq]
  exact ⟨h.resting, fun _ => clampICs_range ics, fun _ => hd, fun _ => by simp, fun _ => ⟨rfl, rfl⟩, nofun,
    h.dcWf, h.pwmWf, h.dcWithin, h.pwmWithin⟩

/-- Every instruction keeps the invariant. -/
theorem exec_keeps_inv {s t : State} {i : Instr} (h : exec i s = .next t) (hs : s.Inv) : t.Inv := by
  cases exec_cases h with
  | same => exact hs
  | setDC _ m _ _ hg => exact hs.withDC (hg hs.dcGood)
  | setPWM _ m _ _ hg => exact hs.withPWM (hg hs.pwmGood)
  | send space hc _ => exact sent_keeps_inv hs hc space
  | enable enabled hc => exact enabledTo_keeps_inv hs hc enabled
  | configure ics clk en lat dat _ hd => exact construct_keeps_inv hs hd
  | packet _ p hc _ => exact transmitPacket_keeps_inv hs hc p

theorem resetController_inv (s : State) : (resetController s).Inv :=
  ⟨rfl, nofun, nofun, nofun, nofun, fun _ => ⟨rfl, rfl⟩, reset_dcmem_wf, reset_pwmmem_wf, nofun, nofun⟩

theorem resetChain_keeps_inv {s : State} (h : s.Inv) : (resetChain s).Inv :=
  ⟨h.resting, h.length, h.distinct, h.enable, h.lines, h.silent, h.dcWf, h.pwmWf, h.dcWithin, h.pwmWithin⟩

/-- Settles O42: by the ways a step can answer a next state, each of which keeps the invariant; no micro-step can be
due, for the sequencer rests. -/
theorem stepKeepsTheInvariant : Obligations.StepKeepsTheInvariant := by
  intro s t hs h
  cases step_cases h with
  | wait => exact hs
  | ignore rest => exact hs.withPort rest
  | run i rest hi => exact exec_keeps_inv hi (hs.withPort rest)
  | hostDC i v rest hi => exact (hs.withPort rest).withDC (hs.dcGood.set hi)
  | hostPWM i v rest hi => exact (hs.withPort rest).withPWM (hs.pwmGood.set hi)
  | reset rest => exact resetController_inv _
  | resetChain rest => exact resetChain_keeps_inv (hs.withPort rest)
  | micro hp => exact absurd hs.resting hp

/-- Settles O40. -/
theorem resetLeavesTheBlockUnconfigured : Obligations.ResetLeavesTheBlockUnconfigured := ⟨rfl, rfl, rfl, rfl⟩

/-- Settles O41: nothing is configured, nothing is emitted, nothing is written. -/
theorem resetMeetsTheInvariant : Obligations.ResetMeetsTheInvariant :=
  ⟨rfl, nofun, nofun, nofun, nofun, fun _ => ⟨rfl, rfl⟩, reset_dcmem_wf, reset_pwmmem_wf, nofun, nofun⟩

/-! ### Direct host writes -/

/-- What DCMEM reads after a write of element `i` (R52). -/
theorem dcElem_set (s : State) (rest : List Input) (i j : Nat) (v : BitVec 8) :
    State.dcElem { s with port := rest, dcmem := s.dcmem.set i v } j = if j = i then v else s.dcElem j := by
  by_cases h : j = i <;> simp [State.dcElem, Mem.get?_set, h]

/-- What PWMMEM reads after a write of element `i` (R52). -/
theorem pwmElem_set (s : State) (rest : List Input) (i j : Nat) (v : BitVec 16) :
    State.pwmElem { s with port := rest, pwmmem := s.pwmmem.set i v } j = if j = i then v else s.pwmElem j := by
  by_cases h : j = i <;> simp [State.pwmElem, Mem.get?_set, h]

/-- Settles O47: by what an element reads after a write to the same and to another index. -/
theorem hostWritesOneElement : Obligations.HostWritesOneElement := by
  constructor
  · intro s i v rest hp hport
    rw [step_of_port hp hport, accept, writeElem_eq]
    constructor
    · intro hi
      rw [if_pos hi]
      exact ⟨_, rfl, rfl, (dcElem_set s rest i i v).trans (if_pos rfl),
        fun j hj => (dcElem_set s rest i j v).trans (if_neg hj)⟩
    · intro hi
      rw [if_neg (Nat.not_lt.2 hi)]
      rfl
  · intro s i v rest hp hport
    rw [step_of_port hp hport, accept, writeElem_eq]
    constructor
    · intro hi
      rw [if_pos hi]
      exact ⟨_, rfl, rfl, (pwmElem_set s rest i i v).trans (if_pos rfl),
        fun j hj => (pwmElem_set s rest i j v).trans (if_neg hj)⟩
    · intro hi
      rw [if_neg (Nat.not_lt.2 hi)]
      rfl

/-! ### The configuration -/

/-- No instruction changes a parameter (R7). -/
theorem exec_params {s t : State} {i : Instr} (h : exec i s = .next t) : t.params = s.params := by
  cases exec_cases h with
  | same => rfl
  | setDC => rfl
  | setPWM => rfl
  | send space => rw [sent_frame]
  | enable enabled => rw [enabledTo_eq]
  | configure => rw [construct, driveIdle_eq]
  | packet _ p => exact transmitPacket_params p s

/-- No instruction changes the configuration of a configured block (R21, R22). -/
theorem exec_configuration {s t : State} {i : Instr} (h : exec i s = .next t) (hs : s.configured = true) :
    t.configured = true ∧ t.cfg = s.cfg := by
  cases exec_cases h with
  | same => exact ⟨hs, rfl⟩
  | setDC => exact ⟨hs, rfl⟩
  | setPWM => exact ⟨hs, rfl⟩
  | send space => rw [sent_frame]; exact ⟨hs, rfl⟩
  | enable enabled => rw [enabledTo_eq]; exact ⟨hs, rfl⟩
  | configure _ _ _ _ _ hc => exact absurd (hs.symm.trans hc) (by decide)
  | packet _ p => exact ⟨(transmitPacket_configured p s).trans hs, transmitPacket_cfg p s⟩

/-- Settles O49: by the ways a step can answer a next state. -/
theorem configurationIsImmutable : Obligations.ConfigurationIsImmutable := by
  intro s t h
  cases step_cases h with
  | wait => exact ⟨rfl, fun hs _ => ⟨hs, rfl⟩⟩
  | ignore rest => exact ⟨rfl, fun hs _ => ⟨hs, rfl⟩⟩
  | run i rest hi => exact ⟨(exec_params hi).trans rfl, fun hs _ => (exec_configuration hi hs :)⟩
  | hostDC i v rest => exact ⟨rfl, fun hs _ => ⟨hs, rfl⟩⟩
  | hostPWM i v rest => exact ⟨rfl, fun hs _ => ⟨hs, rfl⟩⟩
  | reset rest hport => exact ⟨rfl, fun _ hr => absurd (by rw [hport]; rfl) hr⟩
  | resetChain rest => exact ⟨rfl, fun hs _ => ⟨hs, rfl⟩⟩
  | micro _ hm =>
    cases hm with
    | load p q => exact ⟨rfl, fun hs _ => ⟨hs, rfl⟩⟩
    | event e q => exact ⟨emit_params e s, fun hs _ => ⟨(emit_configured e s).trans hs, emit_cfg e s⟩⟩

/-- Before Configure the gate refuses every instruction but Nop and Configure (R23). -/
theorem exec_unconfigured {s : State} {i : Instr} (hs : s.configured = false) (hn : i ≠ .nop)
    (hc : ∀ ics clk en lat dat, i ≠ .configure ics clk en lat dat) : exec i s = .refused (.unconfigured i) := by
  cases i
  case nop => exact absurd rfl hn
  case configure => exact absurd rfl (hc _ _ _ _ _)
  all_goals exact whenConfigured_false hs

theorem exec_configure_first {s : State} {ics clk en lat dat : BitVec 8} (hs : s.configured = false)
    (hd : idsDistinct clk en lat dat = true) :
    exec (.configure ics clk en lat dat) s = .next (construct ics clk en lat dat s) := by
  simp [exec, execConfigure, hd, hs]

theorem exec_configure_collision {ics clk en lat dat : BitVec 8} (hd : idsDistinct clk en lat dat ≠ true)
    (s : State) :
    exec (.configure ics clk en lat dat) s = .refused (.lineIdCollision clk en lat dat) := by
  simp [exec, execConfigure, hd]

/-- Settles O53: Configure overwrites CFG, Nop leaves it, and the gate refuses every other instruction. -/
theorem unsetConfigurationIsNotRead : Obligations.UnsetConfigurationIsNotRead := by
  intro s c i hs
  have hs' : State.configured { s with cfg := c } = false := hs
  by_cases hn : i = .nop
  · subst hn
    exact ⟨rfl, fun hc => absurd (hs.symm.trans hc) (by decide)⟩
  by_cases hc : ∃ ics clk en lat dat, i = .configure ics clk en lat dat
  · obtain ⟨ics, clk, en, lat, dat, rfl⟩ := hc
    by_cases hd : idsDistinct clk en lat dat = true
    · rw [exec_configure_first hs hd, exec_configure_first hs' hd]
      exact ⟨rfl, fun _ => rfl⟩
    · rw [exec_configure_collision hd, exec_configure_collision hd]
  · have hnc : ∀ ics clk en lat dat, i ≠ .configure ics clk en lat dat := by simpa using hc
    rw [exec_unconfigured hs hn hnc, exec_unconfigured hs' hn hnc]

/-! ### The arrays -/

/-- Settles O55: by the ways an instruction can answer a next state. -/
theorem arraysAreSeparate : Obligations.ArraysAreSeparate := by
  intro s t i h
  cases exec_cases h with
  | same => exact ⟨fun _ => rfl, fun _ => rfl⟩
  | setDC _ m _ hi => exact ⟨fun hn => absurd (hi.symm.trans hn) (by decide), fun _ => rfl⟩
  | setPWM _ m _ hi => exact ⟨fun _ => rfl, fun hn => absurd (hi.symm.trans hn) (by decide)⟩
  | send space => rw [sent_frame]; exact ⟨fun _ => rfl, fun _ => rfl⟩
  | enable enabled => rw [enabledTo_eq]; exact ⟨fun _ => rfl, fun _ => rfl⟩
  | configure => rw [construct, driveIdle_eq]; exact ⟨fun _ => rfl, fun _ => rfl⟩
  | packet _ p => exact ⟨fun _ => transmitPacket_dcmem p s, fun _ => transmitPacket_pwmmem p s⟩

/-! ### What the block reads -/

theorem SameToTheBlock.symm {s t : State} (h : SameToTheBlock s t) : SameToTheBlock t s :=
  ⟨h.configured.symm, h.cfg.symm, h.params.symm, h.dcmem.symm, h.pwmmem.symm, h.arrayDraw.symm⟩

theorem SameToTheBlock.trans {s t u : State} (h : SameToTheBlock s t) (h' : SameToTheBlock t u) : SameToTheBlock s u :=
  ⟨h.configured.trans h'.configured, h.cfg.trans h'.cfg, h.params.trans h'.params, h.dcmem.trans h'.dcmem,
    h.pwmmem.trans h'.pwmmem, h.arrayDraw.trans h'.arrayDraw⟩

/-- Two states the block cannot tell apart, moved on without a change the block reads and with the same events. -/
theorem sameOutcome_of_emits {s s' t t' : State} {es : List Event} (h : SameToTheBlock s s') (ht : SameToTheBlock s t)
    (ht' : SameToTheBlock s' t') (hes : t.trace = s.trace ++ es) (hes' : t'.trace = s'.trace ++ es) :
    SameOutcome s s' (.next t) (.next t') := ⟨ht.symm.trans (h.trans ht'), es, hes, hes'⟩

theorem sameOutcome_refl {s s' : State} (h : SameToTheBlock s s') : SameOutcome s s' (.next s) (.next s') :=
  ⟨h, [], by simp, by simp⟩

/-- The gate lets both states pass or neither (R23). -/
theorem sameOutcome_whenConfigured {s s' : State} (h : SameToTheBlock s s') (i : Instr)
    {k k' : Host.Outcome State Fault Refusal} (hk : SameOutcome s s' k k') :
    SameOutcome s s' (whenConfigured i s k) (whenConfigured i s' k') := by
  unfold whenConfigured
  rw [← h.configured]
  split
  · exact hk
  · rfl

theorem sameOutcome_setDCMem {s s' : State} (h : SameToTheBlock s s') (r : Except (WriteStop 8) (Mem 8)) :
    SameOutcome s s' (setDCMem s r) (setDCMem s' r) := by
  cases r with
  | ok m => exact ⟨⟨h.configured, h.cfg, h.params, rfl, h.pwmmem, h.arrayDraw⟩, [], by simp, by simp⟩
  | error e => simp [setDCMem, SameOutcome, h.pwmmem]

theorem sameOutcome_setPWMMem {s s' : State} (h : SameToTheBlock s s') (r : Except (WriteStop 16) (Mem 16)) :
    SameOutcome s s' (setPWMMem s r) (setPWMMem s' r) := by
  cases r with
  | ok m => exact ⟨⟨h.configured, h.cfg, h.params, h.dcmem, rfl, h.arrayDraw⟩, [], by simp, by simp⟩
  | error e => simp [setPWMMem, SameOutcome, h.dcmem]

/-- A Send changes nothing the block reads (R158). -/
theorem sent_sameToTheBlock (space : Space) (s : State) : SameToTheBlock s (sent space s) := by
  rw [sent_frame]
  exact ⟨rfl, rfl, rfl, rfl, rfl, rfl⟩

theorem transmitPacket_sameToTheBlock (p : Packet) (s : State) : SameToTheBlock s (transmitPacket p s) := by
  rw [transmitPacket_frame]
  exact ⟨rfl, rfl, rfl, rfl, rfl, rfl⟩

theorem enabledTo_sameToTheBlock (enabled : Bool) (s : State) : SameToTheBlock s (enabledTo enabled s) := by
  rw [enabledTo_eq]
  exact ⟨rfl, rfl, rfl, rfl, rfl, rfl⟩

theorem transmitPacket_trace (p : Packet) (s : State) : (transmitPacket p s).trace = s.trace ++ packetEvents p := by
  simpa using transmitMany_trace [p] s

/-- What a Send emits depends on what the block reads alone (R133). -/
theorem sendEvents_congr {s s' : State} (h : SameToTheBlock s s') (space : Space) :
    sendEvents space s = sendEvents space s' := by
  simp only [sendEvents, State.count, h.cfg, h.params, packetsDown_congr h.dcmem h.pwmmem h.arrayDraw]

/-- Everything a Send can answer (R150). -/
theorem finish_send_eq (space : Space) (s : State) :
    finish (send space s) =
      if 3 * s.count ≤ s.params.len space then .next (sent space s)
      else .fault (.arrayBounds space (max (s.params.len space) (3 * s.count - 3)) s.dcmem s.pwmmem) := by
  rw [send_eq]
  split <;> rfl

theorem sameOutcome_send {s s' : State} (h : SameToTheBlock s s') (space : Space) :
    SameOutcome s s' (finish (send space s)) (finish (send space s')) := by
  rw [finish_send_eq, finish_send_eq, State.count, State.count, h.cfg, h.params, h.dcmem, h.pwmmem]
  split
  · exact sameOutcome_of_emits h (sent_sameToTheBlock space s) (sent_sameToTheBlock space s') (sent_trace space s)
      (by rw [sent_trace, sendEvents_congr h])
  · rfl

theorem sameOutcome_transmitPacket {s s' : State} (h : SameToTheBlock s s') (p : Packet) :
    SameOutcome s s' (.next (transmitPacket p s)) (.next (transmitPacket p s')) :=
  sameOutcome_of_emits h (transmitPacket_sameToTheBlock p s) (transmitPacket_sameToTheBlock p s')
    (transmitPacket_trace p s) (transmitPacket_trace p s')

theorem sameOutcome_enabledTo {s s' : State} (h : SameToTheBlock s s') (enabled : Bool) :
    SameOutcome s s' (.next (enabledTo enabled s)) (.next (enabledTo enabled s')) :=
  sameOutcome_of_emits h (enabledTo_sameToTheBlock enabled s) (enabledTo_sameToTheBlock enabled s') rfl
    (by rw [enabledTo_eq, h.params])

theorem sameOutcome_construct {s s' : State} (h : SameToTheBlock s s') (ics clk en lat dat : BitVec 8) :
    SameOutcome s s' (.next (construct ics clk en lat dat s)) (.next (construct ics clk en lat dat s')) := by
  simp only [construct, driveIdle_eq]
  exact ⟨⟨rfl, rfl, h.params, h.dcmem, h.pwmmem, h.arrayDraw⟩, _, rfl, by rw [h.params]⟩

/-- Settles O52: instruction by instruction, each operation giving the two states the same outcome. -/
theorem blockReadsOnlyConfigurationAndArrays : Obligations.BlockReadsOnlyConfigurationAndArrays := by
  intro s s' i h
  cases i with
  | nop => exact sameOutcome_refl h
  | configure ics clk en lat dat =>
    simp only [exec, execConfigure, h.configured]
    split
    · split
      · exact sameOutcome_refl h
      · exact sameOutcome_construct h ics clk en lat dat
    · rfl
  | setDotCorrectionForIC ic v0 v1 v2 =>
    refine sameOutcome_whenConfigured h _ ?_
    rw [h.cfg, h.params, h.dcmem]
    split
    · exact sameOutcome_setDCMem h _
    · exact sameOutcome_refl h
  | setDotCorrectionForAllICs v0 v1 v2 =>
    refine sameOutcome_whenConfigured h _ ?_
    rw [State.count, State.count, h.cfg, h.params, h.dcmem]
    exact sameOutcome_setDCMem h _
  | setIntensityForIC ic v0 v1 v2 =>
    refine sameOutcome_whenConfigured h _ ?_
    rw [h.cfg, h.params, h.pwmmem]
    split
    · exact sameOutcome_setPWMMem h _
    · exact sameOutcome_refl h
  | setIntensityForAllICs v0 v1 v2 =>
    refine sameOutcome_whenConfigured h _ ?_
    rw [State.count, State.count, h.cfg, h.params, h.pwmmem]
    exact sameOutcome_setPWMMem h _
  | sendDotCorrection => exact sameOutcome_whenConfigured h _ (sameOutcome_send h .dcmem)
  | sendIntensity => exact sameOutcome_whenConfigured h _ (sameOutcome_send h .pwmmem)
  | setEnabled enabled => exact sameOutcome_whenConfigured h _ (sameOutcome_enabledTo h enabled)
  | wireDC c0 c1 c2 => exact sameOutcome_whenConfigured h _ (sameOutcome_transmitPacket h _)
  | wirePWM c0 c1 c2 => exact sameOutcome_whenConfigured h _ (sameOutcome_transmitPacket h _)

/-! ### The trace and the lines -/

/-- Two states that agree on all the link is made of: levels, chain, its draws, and the parameters it reads. -/
structure SameLink (s t : State) : Prop where
  lvl : s.lvl = t.lvl
  chain : s.chain = t.chain
  draws : s.draws = t.draws
  params : s.params = t.params

theorem SameLink.trans {s t u : State} (h : SameLink s t) (h' : SameLink t u) : SameLink s u :=
  ⟨h.lvl.trans h'.lvl, h.chain.trans h'.chain, h.draws.trans h'.draws, h.params.trans h'.params⟩

/-- What the chain makes of a line write depends on the link alone (R66). -/
theorem SameLink.hear {s t : State} (h : SameLink s t) (line : Line) (v : Level) :
    SameLink (hear line v s) (hear line v t) := by
  cases line with
  | clk =>
    simp only [Machine.hear, h.lvl]
    split
    · exact ⟨rfl, by rw [h.chain], h.draws, h.params⟩
    · exact h
  | lat =>
    simp only [Machine.hear, h.lvl, h.params]
    split
    · exact ⟨rfl, by rw [h.chain, h.draws], by rw [h.draws], rfl⟩
    · exact h
  | en => exact h
  | dat => exact h

theorem SameLink.driveLine {s t : State} (h : SameLink s t) (line : Line) (v : Level) :
    SameLink (driveLine line v s) (driveLine line v t) :=
  ⟨by simp [h.lvl], (h.hear line v).chain, (h.hear line v).draws, (h.hear line v).params⟩

theorem SameLink.drivePins {s t : State} (h : SameLink s t) (ps : List (Line × Level)) :
    SameLink (drivePins ps s) (drivePins ps t) := by
  induction ps generalizing s t with
  | nil => exact h
  | cons p ps ih => exact ih (h.driveLine p.1 p.2)

/-- The state `t` has come from `s` by the events `es`: they are its new trace, and its link is what driving their
pin-level view makes of the link of `s` (R25, R66, R67). -/
structure Explained (es : List Event) (s t : State) : Prop where
  trace : t.trace = s.trace ++ es
  link : SameLink t (drivePins (es.flatMap Event.pins) s)

/-- A change of what is neither trace nor link is explained by no event. -/
theorem explained_nil {s t : State} (htrace : t.trace = s.trace) (hlink : SameLink t s) : Explained [] s t :=
  ⟨by simpa using htrace, hlink⟩

theorem Explained.trans {es es' : List Event} {s t u : State} (h : Explained es s t) (h' : Explained es' t u) :
    Explained (es ++ es') s u := by
  refine ⟨by rw [h'.trace, h.trace, List.append_assoc], ?_⟩
  rw [List.flatMap_append, drivePins_append]
  exact h'.link.trans (h.link.drivePins _)

theorem explained_emit (e : Event) (s : State) : Explained [e] s (emit e s) := by
  refine ⟨emit_trace e s, ?_⟩
  rw [List.flatMap_singleton]
  exact ⟨rfl, rfl, rfl, rfl⟩

/-- Changes of what is neither trace nor link, before and after explained ones, need no event. -/
theorem Explained.of_sameLink {es : List Event} {s s' t t' : State} (h : Explained es s t) (hs : s.trace = s'.trace)
    (hs' : SameLink s s') (ht : t'.trace = t.trace) (ht' : SameLink t' t) : Explained es s' t' := by
  simpa using ((explained_nil hs hs').trans h).trans (explained_nil ht ht')

theorem explained_transmitPacket (p : Packet) (s : State) : Explained (packetEvents p) s (transmitPacket p s) := by
  have hemit : Explained (packetEvents p) (withPkt p s) (transmitPacket p s) :=
    (((explained_emit _ _).trans (explained_emit _ _)).trans (explained_emit _ _)).trans (explained_emit _ _)
  exact hemit.of_sameLink rfl ⟨rfl, rfl, rfl, rfl⟩ rfl ⟨rfl, rfl, rfl, rfl⟩

theorem explained_transmitMany (ps : List Packet) (s : State) :
    Explained (ps.flatMap packetEvents) s (transmitMany ps s) := by
  induction ps generalizing s with
  | nil => exact explained_nil rfl ⟨rfl, rfl, rfl, rfl⟩
  | cons p ps ih => exact (explained_transmitPacket p s).trans (ih (transmitPacket p s))

theorem explained_latchPulse (s : State) : Explained (latchEvents s.params) s (latchPulse s) :=
  (((explained_emit _ _).trans (explained_emit _ _)).trans (explained_emit _ _)).trans (explained_emit _ _)

theorem explained_sent (space : Space) (s : State) : Explained (sendEvents space s) s (sent space s) := by
  have hpackets := explained_transmitMany (packetsDown space s s.count) s
  have hpulse := explained_latchPulse (transmitMany (packetsDown space s s.count) s)
  have hparams : (transmitMany (packetsDown space s s.count) s).params = s.params := by rw [transmitMany_frame]
  rw [hparams] at hpulse
  exact (hpackets.trans hpulse).of_sameLink rfl ⟨rfl, rfl, rfl, rfl⟩ rfl ⟨rfl, rfl, rfl, rfl⟩

theorem explained_enabledTo (enabled : Bool) (s : State) :
    Explained [.writeLine .en (enableLevel s.params enabled)] s (enabledTo enabled s) :=
  (explained_emit _ s).of_sameLink rfl ⟨rfl, rfl, rfl, rfl⟩ rfl ⟨rfl, rfl, rfl, rfl⟩

theorem explained_driveIdle (s : State) :
    Explained [.writeLine .clk Config.clkIdle, .writeLine .en (!s.params.enableActive),
      .writeLine .lat (!s.params.latchActive), .writeLine .dat false] s (driveIdle s) :=
  (((explained_emit _ _).trans (explained_emit _ _)).trans (explained_emit _ _)).trans (explained_emit _ _)

theorem explained_construct (ics clk en lat dat : BitVec 8) (s : State) :
    Explained [.writeLine .clk Config.clkIdle, .writeLine .en (!s.params.enableActive),
      .writeLine .lat (!s.params.latchActive), .writeLine .dat false] s (construct ics clk en lat dat s) := by
  have hdriven := explained_driveIdle { s with
    cfg := { chainLength := clampICs ics, clk := clk, en := en, lat := lat, dat := dat }, enState := .disabled }
  exact hdriven.of_sameLink rfl ⟨rfl, rfl, rfl, rfl⟩ rfl ⟨rfl, rfl, rfl, rfl⟩

/-- Every instruction's move is explained by the events it emits. -/
theorem exec_explained {s t : State} {i : Instr} (h : exec i s = .next t) : ∃ es, Explained es s t := by
  cases exec_cases h with
  | same => exact ⟨[], explained_nil rfl ⟨rfl, rfl, rfl, rfl⟩⟩
  | setDC => exact ⟨[], explained_nil rfl ⟨rfl, rfl, rfl, rfl⟩⟩
  | setPWM => exact ⟨[], explained_nil rfl ⟨rfl, rfl, rfl, rfl⟩⟩
  | send space => exact ⟨_, explained_sent space s⟩
  | enable enabled => exact ⟨_, explained_enabledTo enabled s⟩
  | configure ics clk en lat dat => exact ⟨_, explained_construct ics clk en lat dat s⟩
  | packet _ p => exact ⟨_, explained_transmitPacket p s⟩

/-- Settles O54: each operation is explained by its events, and explanations compose. -/
theorem traceExplainsTheLines : Obligations.TraceExplainsTheLines := by
  intro s t i h
  obtain ⟨es, htrace, hlink⟩ := exec_explained h
  exact ⟨es, htrace, hlink.lvl.trans (drivePins_lvl _ s), hlink.chain, hlink.draws⟩

end Sys2Proof.Machine

/-! The statements of 20_memory.md: how a packet goes out on the pins, what the latch edge loads, that a Send may be
repeated, what a step runs, and what alone can fault. -/

namespace Sys2Proof.Machine

/-! ### Faults -/

/-- The gate raises no fault of its own (R23). -/
theorem whenConfigured_fault {s : State} {i : Instr} {f : Fault} {k : Host.Outcome State Fault Refusal}
    (h : whenConfigured i s k = .fault f) : k = .fault f := by
  unfold whenConfigured at h
  split at h
  · exact h
  · cases h

theorem setDCMem_fault {s : State} {r : Except (WriteStop 8) (Mem 8)} {f : Fault} (h : setDCMem s r = .fault f) :
    ∃ e, r = .error e ∧ f = .arrayBounds .dcmem e.index e.left s.pwmmem := by
  cases r with
  | ok m => cases h
  | error e => cases h; exact ⟨e, rfl, rfl⟩

theorem setPWMMem_fault {s : State} {r : Except (WriteStop 16) (Mem 16)} {f : Fault} (h : setPWMMem s r = .fault f) :
    ∃ e, r = .error e ∧ f = .arrayBounds .pwmmem e.index s.dcmem e.left := by
  cases r with
  | ok m => cases h
  | error e => cases h; exact ⟨e, rfl, rfl⟩

theorem inRange_iff (ic n : BitVec 8) : inRange ic n = true ↔ 1 ≤ ic.toNat ∧ ic.toNat ≤ n.toNat := by
  simp [inRange]

/-- The writes of an IC of the chain stop at one of its slots, beyond the array (R52, R110). -/
theorem writeIC_error {w len : Nat} {ic n : BitVec 8} {e0 e1 e2 : BitVec w} {m : Mem w} {e : WriteStop w}
    (hr : inRange ic n = true) (h : writeIC len ic.toNat e0 e1 e2 m = .error e) :
    len ≤ e.index ∧ e.index < 3 * n.toNat := by
  obtain ⟨hpos, hle⟩ := (inRange_iff ic n).1 hr
  rw [writeIC_eq] at h
  split at h
  · cases h
  · rename_i hs
    cases h
    simp only [slot] at hs ⊢
    omega

/-- The writes of ICs 1 to `n` stop at the first index that is not there (R52). -/
theorem writeICs_error {w len n : Nat} {e0 e1 e2 : BitVec w} {m : Mem w} {e : WriteStop w}
    (h : writeICs len e0 e1 e2 n m = .error e) : len ≤ e.index ∧ e.index < 3 * n := by
  by_cases hn : 3 * n ≤ len
  · obtain ⟨m', hm', -⟩ := writeICs_ok (e0 := e0) (e1 := e1) (e2 := e2) (m := m) hn
    rw [h] at hm'; cases hm'
  · obtain ⟨d, hd, -⟩ := writeICs_stop (e0 := e0) (e1 := e1) (e2 := e2) (m := m) (Nat.not_le.1 hn)
    rw [h] at hd; cases hd
    exact ⟨le_refl _, Nat.not_le.1 hn⟩

/-- The three ways an instruction can fault: an access to a short array, at an index a command of `N` ICs reaches. -/
inductive FaultCase (s : State) : Instr → Fault → Prop where
  /-- A setter has written DCMEM up to where it ends. -/
  | setDC (i : Instr) (j : Nat) (d : Mem 8) (hi : isSetterOf .dcmem i = true) (hj : s.params.dcLen ≤ j)
      (hn : j < 3 * s.count) : FaultCase s i (.arrayBounds .dcmem j d s.pwmmem)
  /-- A setter has written PWMMEM up to where it ends. -/
  | setPWM (i : Instr) (j : Nat) (p : Mem 16) (hi : isSetterOf .pwmmem i = true) (hj : s.params.pwmLen ≤ j)
      (hn : j < 3 * s.count) : FaultCase s i (.arrayBounds .pwmmem j s.dcmem p)
  /-- A Send has read beyond its array. -/
  | send (space : Space) (j : Nat) (hj : s.params.len space ≤ j) (hn : j < 3 * s.count) :
      FaultCase s (sendOf space) (.arrayBounds space j s.dcmem s.pwmmem)

theorem finish_send_fault {space : Space} {s : State} {f : Fault} (h : finish (send space s) = .fault f) :
    FaultCase s (sendOf space) f := by
  rw [finish_send_eq] at h
  split at h
  · cases h
  · cases h
    exact .send space _ (by omega) (by omega)

/-- Everything an instruction can do when it faults. -/
theorem exec_fault_cases {s : State} {i : Instr} {f : Fault} (h : exec i s = .fault f) : FaultCase s i f := by
  cases i with
  | nop => cases h
  | configure ics clk en lat dat =>
    simp only [exec, execConfigure] at h
    split at h
    · split at h <;> cases h
    · cases h
  | setDotCorrectionForIC ic v0 v1 v2 =>
    have h := whenConfigured_fault h
    split at h
    · rename_i hr
      obtain ⟨e, he, rfl⟩ := setDCMem_fault h
      obtain ⟨hj, hn⟩ := writeIC_error hr he
      exact .setDC _ _ _ rfl hj hn
    · cases h
  | setDotCorrectionForAllICs v0 v1 v2 =>
    obtain ⟨e, he, rfl⟩ := setDCMem_fault (whenConfigured_fault h)
    obtain ⟨hj, hn⟩ := writeICs_error he
    exact .setDC _ _ _ rfl hj hn
  | setIntensityForIC ic v0 v1 v2 =>
    have h := whenConfigured_fault h
    split at h
    · rename_i hr
      obtain ⟨e, he, rfl⟩ := setPWMMem_fault h
      obtain ⟨hj, hn⟩ := writeIC_error hr he
      exact .setPWM _ _ _ rfl hj hn
    · cases h
  | setIntensityForAllICs v0 v1 v2 =>
    obtain ⟨e, he, rfl⟩ := setPWMMem_fault (whenConfigured_fault h)
    obtain ⟨hj, hn⟩ := writeICs_error he
    exact .setPWM _ _ _ rfl hj hn
  | sendDotCorrection => exact finish_send_fault (space := .dcmem) (whenConfigured_fault h)
  | sendIntensity => exact finish_send_fault (space := .pwmmem) (whenConfigured_fault h)
  | setEnabled enabled => cases whenConfigured_fault h
  | wireDC c0 c1 c2 => cases whenConfigured_fault h
  | wirePWM c0 c1 c2 => cases whenConfigured_fault h

/-- Settles O51: by the three ways an instruction can fault. -/
theorem onlyShortArraysFault : Obligations.OnlyShortArraysFault := by
  intro s i f h
  cases exec_fault_cases h with
  | setDC _ j d hi hj hn =>
    exact ⟨.dcmem, j, d, _, rfl, hj, hn, fun hi' => absurd (hi.symm.trans hi') (by decide), fun _ => rfl⟩
  | setPWM _ j p hi hj hn =>
    exact ⟨.pwmmem, j, _, p, rfl, hj, hn, fun _ => rfl, fun hi' => absurd (hi.symm.trans hi') (by decide)⟩
  | send space j hj hn => exact ⟨space, j, _, _, rfl, hj, hn, fun _ => rfl, fun _ => rfl⟩

/-! ### The latch edge -/

/-- A link word decodes to a dot-correction packet by its constant bits and its fields (R81, R95). -/
theorem decode_packet_wireDC {p : Packet} {c0 c1 c2 : BitVec 7} (h : decode (.packet p) = .instr (.wireDC c0 c1 c2)) :
    p &&& wireDCMask = wireDCMatch ∧ c0 = p.extractLsb' 0 7 ∧ c1 = p.extractLsb' 10 7 ∧ c2 = p.extractLsb' 20 7 := by
  simp only [decode, decodePacket] at h
  split at h
  · cases h; exact ⟨‹_›, rfl, rfl, rfl⟩
  · split at h <;> cases h

/-- A link word decodes to an intensity packet by its constant bits and its fields (R82, R95). -/
theorem decode_packet_wirePWM {p : Packet} {c0 c1 c2 : BitVec 10}
    (h : decode (.packet p) = .instr (.wirePWM c0 c1 c2)) :
    ¬ p &&& wireDCMask = wireDCMatch ∧ p &&& wirePWMMask = wirePWMMatch ∧
      c0 = p.extractLsb' 0 10 ∧ c1 = p.extractLsb' 10 10 ∧ c2 = p.extractLsb' 20 10 := by
  simp only [decode, decodePacket] at h
  split at h
  · cases h
  · split at h
    · cases h; exact ⟨‹_›, ‹_›, rfl, rfl, rfl⟩
    · cases h

/-- A stray link word has the constant bits of neither format (R83, R84). -/
theorem decode_packet_stray {p q : Packet} (h : decode (.packet p) = .stray q) :
    ¬ p &&& wireDCMask = wireDCMatch ∧ ¬ p &&& wirePWMMask = wirePWMMatch := by
  simp only [decode, decodePacket] at h
  split at h
  · cases h
  · split at h
    · cases h
    · exact ⟨‹_›, ‹_›⟩

/-- A dot-correction packet's clock-mode bits are 00 (R81, R239). -/
theorem clockMode_of_wireDC {p : Packet} (h : p &&& wireDCMask = wireDCMatch) : p.extractLsb' 7 2 = 0 := by
  have hbits : p.extractLsb' 7 2 &&& wireDCMask.extractLsb' 7 2 = wireDCMatch.extractLsb' 7 2 := by
    rw [← BitVec.extractLsb'_and, h]
  have hmask : wireDCMask.extractLsb' 7 2 = BitVec.allOnes 2 := by decide
  rw [hmask, BitVec.and_allOnes] at hbits
  exact hbits.trans (by decide)

/-- The latch edge moves no window (R66). -/
theorem latchIC_sr (d k : Nat) (ic : ChainIC) : (latchIC d k ic).sr = ic.sr := by
  unfold latchIC
  split
  · rfl
  · split
    · rfl
    · split <;> rfl

/-- Driving the latch line active from rest is one latch edge (R61, R66). -/
theorem writeLine_lat_chain {s : State} (h : s.lvl.lat = !s.params.latchActive) :
    (writeLine .lat s.params.latchActive s).chain = latchChain s.draws 1 s.chain := by
  simp [Event.pins, hear, h]

/-- Settles O27: the latch edge at each IC, by what its window decodes to. -/
theorem latchLoadsOrRefuses : Obligations.LatchLoadsOrRefuses := by
  intro s hlat
  rw [writeLine_lat_chain hlat]
  refine ⟨latchChain_length _ _ _, fun m ic ic' hm hm' => ?_⟩
  have hic' : latchIC s.draws (1 + m) ic = ic' := Option.some.inj ((latchChain_get _ _ _ m ic hm).symm.trans hm')
  subst hic'
  refine ⟨latchIC_sr _ _ ic, fun hr => ⟨fun c0 c1 c2 hdec => ?_, fun c0 c1 c2 hdec => ?_, fun hdec => ?_⟩, fun hr => ?_⟩
  · obtain ⟨hdc, rfl, rfl, rfl⟩ := decode_packet_wireDC hdec
    rw [latchIC_dc hr hdc, clockMode_of_wireDC hdc]
  · obtain ⟨hdc, hpwm, rfl, rfl, rfl⟩ := decode_packet_wirePWM hdec
    rw [latchIC_pwm hr hdc hpwm]
  · obtain ⟨hdc, hpwm⟩ := decode_packet_stray hdec
    rw [latchIC_stray hr hdc hpwm]
    rfl
  · obtain ⟨w, hw⟩ := Option.ne_none_iff_exists'.1 hr
    rw [latchIC_refused hw, hw]
    rfl

/-! ### A repeated Send -/

/-- A packet of a Send has the constant bits of its format (R83, R84). -/
theorem packetAt_constantBits (space : Space) (s : State) (n : Nat) :
    packetAt space s n &&& wireDCMask = wireDCMatch ∨ packetAt space s n &&& wirePWMMask = wirePWMMatch := by
  cases space with
  | dcmem => exact .inl (Laws.RowMatch.wireDC (mask7 _) (mask7 _) (mask7 _))
  | pwmmem => exact .inr (Laws.RowMatch.wirePWM (mask10 _) (mask10 _) (mask10 _))

/-- Latching the same packet again, whatever the draw, changes nothing at an IC that has refused nothing (R59, R66). -/
theorem latchIC_again {ic : ChainIC} {p : Packet} (hr : ic.refused = none)
    (hp : p &&& wireDCMask = wireDCMatch ∨ p &&& wirePWMMask = wirePWMMatch) (d d' k : Nat) :
    latchIC d' k { latchIC d k { ic with sr := p } with sr := p } = latchIC d k { ic with sr := p } := by
  by_cases hdc : p &&& wireDCMask = wireDCMatch
  · rw [latchIC_dc (ic := { ic with sr := p }) hr hdc]
    exact latchIC_dc hr hdc
  · have hpwm := hp.resolve_left hdc
    rw [latchIC_pwm (ic := { ic with sr := p }) hr hdc hpwm]
    exact latchIC_pwm hr hdc hpwm

/-- A Send is its loop and latch pulse, past the gate (R150, R151). -/
theorem exec_sendOf (space : Space) (s : State) :
    exec (sendOf space) s = whenConfigured (sendOf space) s (finish (send space s)) := by
  cases space <;> rfl

/-- A Send completes on a configured block whose array fits (R150). -/
theorem exec_sendOf_of_fit {space : Space} {s : State} (hc : s.configured = true)
    (hf : 3 * s.count ≤ s.params.len space) : exec (sendOf space) s = .next (sent space s) := by
  rw [exec_sendOf, whenConfigured_true hc, finish_send_eq, if_pos hf]

/-- A Send that completes has passed the gate and its array fits (R150). -/
theorem exec_sendOf_next {space : Space} {s t : State} (h : exec (sendOf space) s = .next t) :
    s.configured = true ∧ 3 * s.count ≤ s.params.len space ∧ t = sent space s := by
  rw [exec_sendOf] at h
  obtain ⟨hc, h⟩ := whenConfigured_next h
  exact ⟨hc, finish_send_next h⟩

/-- The lines a Send leaves are at rest when the clock was (R158). -/
theorem sent_lines_at_rest {s : State} (space : Space) (hclk : s.lvl.clk = false) :
    (sent space s).lvl.clk = false ∧ (sent space s).lvl.lat = !(sent space s).params.latchActive := by
  obtain ⟨-, -, hclk'⟩ := transmitMany_chain (packetsDown space s s.count) s hclk
  rw [sent_frame, sent_lvl]
  exact ⟨hclk', rfl⟩

theorem sent_chain_length {s : State} (space : Space) (hclk : s.lvl.clk = false)
    (hlat : s.lvl.lat = !s.params.latchActive) : (sent space s).chain.length = s.chain.length := by
  rw [sent_chain space s hclk hlat, latchChain_length, pushMany_length]

/-- On a chain of exactly `N` ICs that have refused nothing, with the lines at rest, a second Send leaves the chain as
the first did: each IC gets the packet its window already holds (R59, R159). -/
theorem sent_sent_chain {s : State} (space : Space) (hl : s.chain.length = s.cfg.chainLength.toNat)
    (hr : ∀ ic ∈ s.chain, ic.refused = none) (hclk : s.lvl.clk = false) (hlat : s.lvl.lat = !s.params.latchActive) :
    (sent space (sent space s)).chain = (sent space s).chain := by
  have hsame := sent_sameToTheBlock space s
  obtain ⟨hclk', hlat'⟩ := sent_lines_at_rest space hclk
  have hlen := sent_chain_length space hclk hlat
  have hlen' := sent_chain_length space hclk' hlat'
  apply List.ext_getElem?
  intro m
  cases hm : s.chain[m]? with
  | none =>
    have hm := List.getElem?_eq_none_iff.1 hm
    rw [List.getElem?_eq_none (by omega), List.getElem?_eq_none (by omega)]
  | some ic =>
    have hfirst := sent_chain_get space s hl hclk hlat m ic hm
    have hsecond := sent_chain_get space (sent space s) (by rw [hlen, hl, hsame.cfg]) hclk' hlat' m _ hfirst
    have hpacket : packetAt space (sent space s) (m + 1) = packetAt space s (m + 1) :=
      (packetAt_congr hsame.dcmem hsame.pwmmem hsame.arrayDraw space (m + 1)).symm
    rw [hsecond, hfirst, hpacket,
      latchIC_again (hr ic (List.mem_of_getElem? hm)) (packetAt_constantBits space s (m + 1))]

/-- Settles O31: the second Send reads what the first read, and each IC latches the packet it holds. -/
theorem repeatedSendSendsTheSame : Obligations.RepeatedSendSendsTheSame := by
  intro space s t h
  obtain ⟨hc, hf, rfl⟩ := exec_sendOf_next h
  have hsame := sent_sameToTheBlock space s
  have hf' : 3 * (sent space s).count ≤ (sent space s).params.len space := by
    rw [State.count, ← hsame.cfg, ← hsame.params]
    exact hf
  refine ⟨sent space (sent space s), sendEvents space s, exec_sendOf_of_fit (hsame.configured.symm.trans hc) hf',
    sent_trace space s, ?_, fun _ hl hr hclk hlat => sent_sent_chain space hl hr hclk hlat⟩
  rw [sent_trace, sendEvents_congr hsame]

/-! ### Packet bits on the pins -/

theorem bitsDown_eq_map {w : Nat} (v : BitVec w) (n : Nat) :
    bitsDown v n = (List.range n).map fun k => v.getLsbD (n - 1 - k) := by
  induction n with
  | zero => rfl
  | succ n ih =>
    rw [bitsDown, ih, List.range_succ_eq_map, List.map_cons, List.map_map]
    congr 1
    apply List.map_congr_left
    intro k _
    show v.getLsbD (n - 1 - k) = v.getLsbD (n + 1 - 1 - (k + 1))
    congr 1
    omega

/-- The line writes of a byte are those of its bits, most significant first (R54, R68). -/
theorem bytePins_eq_flatMap (b : Byte) (n : Nat) : bytePins b n = (bitsDown b n).flatMap bitPins := by
  induction n with
  | zero => rfl
  | succ n ih => rw [bytePins, bitsDown, List.flatMap_cons, ih]

/-- The line writes of a packet are those of its 32 bits, most significant first (R55). -/
theorem packetEvents_pins (p : Packet) : (packetEvents p).flatMap Event.pins = (bitsDown p 32).flatMap bitPins := by
  rw [← bitsDown_bytes]
  simp [packetEvents_eq, Event.pins, bytePins_eq_flatMap]

/-- The data-line writes of a run of bits are the bits (R68). -/
theorem flatMap_bitPins_filter_dat (bs : List Bool) :
    (bs.flatMap bitPins).filter (fun w => w.1 = .dat) = bs.map fun d => (Line.dat, d) := by
  induction bs with
  | nil => rfl
  | cons d bs ih => simp [bitPins, ih]

/-- Settles O23: a packet's pin-level view is its bits in order, and a byte's likewise. -/
theorem packetBitsMostSignificantFirst : Obligations.PacketBitsMostSignificantFirst := by
  refine ⟨fun p => ?_, fun b s => ⟨?_, ?_⟩⟩
  · rw [packetEvents_pins, flatMap_bitPins_filter_dat, bitsDown_eq_map, List.map_map]
    rfl
  · rw [Event.pins, bytePins_eq_flatMap, bitsDown_eq_map, List.flatMap_map]
    rfl
  · rw [shiftOutByte_eq, emit_lvl, shiftOutByte_lvl]

/-! ### What a step runs -/

/-- The machine decodes and runs the word an input carries (R212). -/
theorem accept_inputOf (c : Code) (s : State) : accept (inputOf c) s = runDecoded (decode c) s := by
  cases c <;> rfl

/-- Settles O43: the head of the port is taken, decoded and run. -/
theorem stepRunsTheDecodedInstruction : Obligations.StepRunsTheDecodedInstruction := by
  intro s c i rest hp hport hdec
  rw [step_of_port hp hport, accept_inputOf, hdec]
  rfl

end Sys2Proof.Machine

/-! The statements of 30_encoding.md: the two packets and `Pack`, the command-word formats, that decode and encode
agree, what a step makes of a word at the port, and that a chain of exactly `N` ICs refuses nothing. -/

namespace Sys2Proof.Machine

/-! ### Fields of a masked word -/

/-- A field whose bits the mask all keeps. -/
theorem extractLsb'_and_ones {w start len : Nat} {x mask : BitVec w}
    (hm : mask.extractLsb' start len = BitVec.allOnes len) :
    (x &&& mask).extractLsb' start len = x.extractLsb' start len := by
  rw [BitVec.extractLsb'_and, hm, BitVec.and_allOnes]

/-- A field whose bits the mask all clears. -/
theorem extractLsb'_and_zeros {w start len : Nat} {x mask : BitVec w} (hm : mask.extractLsb' start len = 0#len) :
    (x &&& mask).extractLsb' start len = 0#len := by
  rw [BitVec.extractLsb'_and, hm, BitVec.and_zero]

/-- A word that matches under a mask has the match's value in every field the mask keeps. -/
theorem extractLsb'_of_and_eq {w start len : Nat} {x mask mtch : BitVec w} (h : x &&& mask = mtch)
    (hm : mask.extractLsb' start len = BitVec.allOnes len) : x.extractLsb' start len = mtch.extractLsb' start len := by
  rw [← h, extractLsb'_and_ones hm]

/-! ### The packets and `Pack` -/

/-- The address field, packed first, meets an accumulator of 0 (R86). -/
theorem packStep_first (n v : Nat) : 0#32 <<< n ||| BitVec.ofNat 32 (v % 2 ^ n) = (BitVec.ofNat n v).setWidth 32 := by
  apply BitVec.eq_of_toNat_eq
  simp

/-- Every further step of `Pack` appends its field to the bits packed before (R86). -/
theorem packStep_eq_append {k n : Nat} (x : BitVec k) (v : Nat) :
    x.setWidth 32 <<< n ||| BitVec.ofNat 32 (v % 2 ^ n) = (x ++ BitVec.ofNat n v).setWidth 32 := by
  rw [BitVec.setWidth_append_eq_shiftLeft_setWidth_or, ← packStep_first, BitVec.zero_shiftLeft, BitVec.zero_or]

theorem pack_dcFields {w : Nat} (c0 c1 c2 : BitVec w) :
    pack (dcFields c0.toNat c1.toNat c2.toNat) = encodeDotCorrection c0 c1 c2 := by
  simp only [pack, dcFields, List.foldl_cons, List.foldl_nil, packStep_first, packStep_eq_append, BitVec.ofNat_toNat]
  exact BitVec.setWidth_eq _

theorem pack_pwmFields {w : Nat} (c0 c1 c2 : BitVec w) :
    pack (pwmFields c0.toNat c1.toNat c2.toNat) = encodeIntensity c0 c1 c2 := by
  simp only [pack, pwmFields, List.foldl_cons, List.foldl_nil, packStep_first, packStep_eq_append, BitVec.ofNat_toNat]
  exact BitVec.setWidth_eq _

/-- Settles O8: each step of the fold appends one field. -/
theorem packBuildsBothPackets : Obligations.PackBuildsBothPackets :=
  fun _ c0 c1 c2 => ⟨pack_dcFields c0 c1 c2, pack_pwmFields c0 c1 c2⟩

/-- The bit positions of the eight fields of `W-DC` (R81). -/
theorem wireDC_positions (addr : BitVec 2) (r2 r1 : BitVec 3) (r0 : BitVec 1) (mode : BitVec 2) (c0 c1 c2 : BitVec 7) :
    ∀ p, p = addr ++ r2 ++ c2 ++ r1 ++ c1 ++ r0 ++ mode ++ c0 →
      p.extractLsb' 30 2 = addr ∧ p.extractLsb' 27 3 = r2 ∧ p.extractLsb' 20 7 = c2 ∧ p.extractLsb' 17 3 = r1 ∧
      p.extractLsb' 10 7 = c1 ∧ p.extractLsb' 9 1 = r0 ∧ p.extractLsb' 7 2 = mode ∧ p.extractLsb' 0 7 = c0 := by
  rintro _ rfl
  simp (disch := decide) only [BitVec.extractLsb'_append_eq_of_le, BitVec.extractLsb'_append_eq_of_add_le]
  simp

/-- The bit positions of the four fields of `W-PWM` (R82). -/
theorem wirePWM_positions (addr : BitVec 2) (c0 c1 c2 : BitVec 10) :
    ∀ p, p = addr ++ c2 ++ c1 ++ c0 →
      p.extractLsb' 30 2 = addr ∧ p.extractLsb' 20 10 = c2 ∧ p.extractLsb' 10 10 = c1 ∧ p.extractLsb' 0 10 = c0 := by
  rintro _ rfl
  simp (disch := decide) only [BitVec.extractLsb'_append_eq_of_le, BitVec.extractLsb'_append_eq_of_add_le]
  simp

/-- The dot-correction packet as R81's number: an append is a shift and an or. -/
theorem encodeDotCorrection_number {w : Nat} (c0 c1 c2 : BitVec w) :
    encodeDotCorrection c0 c1 c2 =
      0x40000000#32 ||| (c2.setWidth 7).setWidth 32 <<< 20 ||| (c1.setWidth 7).setWidth 32 <<< 10 |||
        (c0.setWidth 7).setWidth 32 := by
  unfold encodeDotCorrection
  rw [← BitVec.setWidth_eq (_ ++ mask7 c0)]
  simp only [BitVec.setWidth_append_eq_shiftLeft_setWidth_or, BitVec.shiftLeft_or_distrib, ← BitVec.shiftLeft_add]
  simp [mask7]

/-- The intensity packet as R82's number. -/
theorem encodeIntensity_number {w : Nat} (c0 c1 c2 : BitVec w) :
    encodeIntensity c0 c1 c2 =
      (c2.setWidth 10).setWidth 32 <<< 20 ||| (c1.setWidth 10).setWidth 32 <<< 10 ||| (c0.setWidth 10).setWidth 32 := by
  unfold encodeIntensity
  rw [← BitVec.setWidth_eq (_ ++ mask10 c0)]
  simp only [BitVec.setWidth_append_eq_shiftLeft_setWidth_or, BitVec.shiftLeft_or_distrib, ← BitVec.shiftLeft_add]
  simp [mask10]

/-- Settles O6: by the positions of the fields and the number. -/
theorem dotCorrectionPacketLayout : Obligations.DotCorrectionPacketLayout := by
  intro w c0 c1 c2
  obtain ⟨haddr, hr2, hc2, hr1, hc1, hr0, hmode, hc0⟩ :=
    wireDC_positions 0b01#2 0#3 0#3 0#1 0#2 (mask7 c0) (mask7 c1) (mask7 c2) (encodeDotCorrection c0 c1 c2) rfl
  exact ⟨haddr, hr2, hc2, hr1, hc1, hr0, hmode, hc0, encodeDotCorrection_number c0 c1 c2⟩

/-- Settles O7: by the positions of the fields and the number. -/
theorem intensityPacketLayout : Obligations.IntensityPacketLayout := by
  intro w c0 c1 c2
  obtain ⟨haddr, hc2, hc1, hc0⟩ :=
    wirePWM_positions 0b00#2 (mask10 c0) (mask10 c1) (mask10 c2) (encodeIntensity c0 c1 c2) rfl
  exact ⟨haddr, hc2, hc1, hc0, encodeIntensity_number c0 c1 c2⟩

/-! ### Decoding packets -/

theorem decode_of_wireDC {p : Packet} (h : p &&& wireDCMask = wireDCMatch) :
    decode (.packet p) = .instr (.wireDC (p.extractLsb' 0 7) (p.extractLsb' 10 7) (p.extractLsb' 20 7)) :=
  if_pos h

theorem decode_of_wirePWM {p : Packet} (h : ¬ p &&& wireDCMask = wireDCMatch)
    (h' : p &&& wirePWMMask = wirePWMMatch) :
    decode (.packet p) = .instr (.wirePWM (p.extractLsb' 0 10) (p.extractLsb' 10 10) (p.extractLsb' 20 10)) :=
  (if_neg h).trans (if_pos h')

theorem decode_of_stray {p : Packet} (h : ¬ p &&& wireDCMask = wireDCMatch)
    (h' : ¬ p &&& wirePWMMask = wirePWMMatch) : decode (.packet p) = .stray p :=
  (if_neg h).trans (if_neg h')

/-- The constant bits of `W-PWM` are its address `00` (R82, R95). -/
theorem wirePWM_iff_address (p : Packet) : p &&& wirePWMMask = wirePWMMatch ↔ p.extractLsb' 30 2 = 0#2 := by
  constructor
  · intro h
    exact extractLsb'_of_and_eq h (by decide)
  · intro h
    have haddr : (p &&& wirePWMMask).extractLsb' 30 2 = 0#2 := (extractLsb'_and_ones (by decide)).trans h
    have hrest : (p &&& wirePWMMask).extractLsb' 0 30 = 0#30 := extractLsb'_and_zeros (by decide)
    calc p &&& wirePWMMask
        = (p &&& wirePWMMask).extractLsb' 30 2 ++ (p &&& wirePWMMask).extractLsb' 0 30 :=
          (BitVec.extractLsb'_append_extractLsb' (w := 2) (len := 30)).symm
      _ = 0#2 ++ 0#30 := by rw [haddr, hrest]

/-- No word has the constant bits of both packets: their addresses differ (R81, R82). -/
theorem not_wirePWM_of_wireDC {p : Packet} (h : p &&& wireDCMask = wireDCMatch) :
    ¬ p &&& wirePWMMask = wirePWMMatch := by
  intro h'
  have haddr : p.extractLsb' 30 2 = 0b01#2 := extractLsb'_of_and_eq h (by decide)
  exact absurd (haddr.symm.trans ((wirePWM_iff_address p).1 h')) (by decide)

/-- Settles O5: each way of decoding a link word goes with its own constant bits. -/
theorem packetWordsAreTheTwoFormats : Obligations.PacketWordsAreTheTwoFormats := by
  intro p
  rw [← wirePWM_iff_address]
  refine ⟨⟨?_, fun h => ⟨_, _, _, decode_of_wireDC h⟩⟩,
    ⟨?_, fun h => ⟨_, _, _, decode_of_wirePWM (fun hdc => not_wirePWM_of_wireDC hdc h) h⟩⟩,
    decode_packet_stray, fun ⟨h, h'⟩ => decode_of_stray h h'⟩
  · rintro ⟨c0, c1, c2, h⟩
    exact (decode_packet_wireDC h).1
  · rintro ⟨c0, c1, c2, h⟩
    exact (decode_packet_wirePWM h).2.1

/-- A link word is the eight fields of `W-DC` side by side (R81). -/
theorem wireDC_split (p : Packet) :
    p.extractLsb' 30 2 ++ p.extractLsb' 27 3 ++ p.extractLsb' 20 7 ++ p.extractLsb' 17 3 ++ p.extractLsb' 10 7 ++
      p.extractLsb' 9 1 ++ p.extractLsb' 7 2 ++ p.extractLsb' 0 7 = p := by
  simp only [BitVec.extractLsb'_append_extractLsb'_eq_extractLsb']
  exact BitVec.extractLsb'_eq_self

/-- A dot-correction packet is rebuilt from its channel values: its other fields are constant (R81, R95). -/
theorem wireDC_rebuild {p : Packet} (h : p &&& wireDCMask = wireDCMatch) :
    0b01#2 ++ 0#3 ++ p.extractLsb' 20 7 ++ 0#3 ++ p.extractLsb' 10 7 ++ 0#1 ++ 0#2 ++ p.extractLsb' 0 7 = p := by
  have haddr : p.extractLsb' 30 2 = 0b01#2 := extractLsb'_of_and_eq h (by decide)
  have hr2 : p.extractLsb' 27 3 = 0#3 := extractLsb'_of_and_eq h (by decide)
  have hr1 : p.extractLsb' 17 3 = 0#3 := extractLsb'_of_and_eq h (by decide)
  have hr0 : p.extractLsb' 9 1 = 0#1 := extractLsb'_of_and_eq h (by decide)
  have hmode : p.extractLsb' 7 2 = 0#2 := clockMode_of_wireDC h
  have hsplit := wireDC_split p
  rwa [haddr, hr2, hr1, hr0, hmode] at hsplit

/-- An intensity packet is rebuilt from its channel values (R82, R95). -/
theorem wirePWM_rebuild {p : Packet} (h : p &&& wirePWMMask = wirePWMMatch) :
    0b00#2 ++ p.extractLsb' 20 10 ++ p.extractLsb' 10 10 ++ p.extractLsb' 0 10 = p := by
  rw [← (wirePWM_iff_address p).1 h]
  simp only [BitVec.extractLsb'_append_extractLsb'_eq_extractLsb']
  exact BitVec.extractLsb'_eq_self

/-- A link word that is a packet is encoded as it was (R134). -/
theorem encode_of_decode_packet {p : Packet} {i : Instr} (h : decode (.packet p) = .instr i) :
    encode i = .packet p := by
  by_cases hdc : p &&& wireDCMask = wireDCMatch
  · rw [decode_of_wireDC hdc] at h
    cases h
    exact congrArg Code.packet (wireDC_rebuild hdc)
  · by_cases hpwm : p &&& wirePWMMask = wirePWMMatch
    · rw [decode_of_wirePWM hdc hpwm] at h
      cases h
      exact congrArg Code.packet (wirePWM_rebuild hpwm)
    · rw [decode_of_stray hdc hpwm] at h
      cases h

/-! ### The command-word formats -/

/-- A word of format `T` with its reserved bits cleared is its opcode (R88). -/
theorem formatT_named {w : CommandWord} {op : BitVec 4} (h : opcodeField w = op) :
    op ++ 0#60 = w &&& 0xF000000000000000#64 := by
  have hop : (w &&& 0xF000000000000000#64).extractLsb' 60 4 = op := (extractLsb'_and_ones (by decide)).trans h
  have hrest : (w &&& 0xF000000000000000#64).extractLsb' 0 60 = 0#60 := extractLsb'_and_zeros (by decide)
  rw [← hop, ← hrest]
  exact BitVec.extractLsb'_append_extractLsb' (w := 4) (len := 60)

/-- A word is the fields of format `S` side by side (R88). -/
theorem formatS_split (w : CommandWord) :
    opcodeField w ++ w.extractLsb' 56 4 ++ icField w ++ v2Field w ++ v1Field w ++ v0Field w = w := by
  simp only [opcodeField, icField, v2Field, v1Field, v0Field, BitVec.extractLsb'_append_extractLsb'_eq_extractLsb']
  exact BitVec.extractLsb'_eq_self

/-- A word of format `S` with its reserved bits cleared is its fields (R88). -/
theorem formatS_named {w : CommandWord} {op : BitVec 4} (h : opcodeField w = op) :
    op ++ 0#4 ++ icField w ++ v2Field w ++ v1Field w ++ v0Field w = w &&& 0xF0FFFFFFFFFFFFFF#64 := by
  have hsplit := formatS_split (w &&& 0xF0FFFFFFFFFFFFFF#64)
  simp (disch := decide) only [opcodeField, icField, v2Field, v1Field, v0Field, extractLsb'_and_ones,
    extractLsb'_and_zeros] at h hsplit ⊢
  rwa [h] at hsplit

/-- A word is the fields of format `A` side by side (R88). -/
theorem formatA_split (w : CommandWord) :
    opcodeField w ++ w.extractLsb' 48 12 ++ v2Field w ++ v1Field w ++ v0Field w = w := by
  simp only [opcodeField, v2Field, v1Field, v0Field, BitVec.extractLsb'_append_extractLsb'_eq_extractLsb']
  exact BitVec.extractLsb'_eq_self

/-- A word of format `A` with its reserved bits cleared is its fields (R88). -/
theorem formatA_named {w : CommandWord} {op : BitVec 4} (h : opcodeField w = op) :
    op ++ 0#12 ++ v2Field w ++ v1Field w ++ v0Field w = w &&& 0xF000FFFFFFFFFFFF#64 := by
  have hsplit := formatA_split (w &&& 0xF000FFFFFFFFFFFF#64)
  simp (disch := decide) only [opcodeField, v2Field, v1Field, v0Field, extractLsb'_and_ones,
    extractLsb'_and_zeros] at h hsplit ⊢
  rwa [h] at hsplit

/-- A word is the fields of format `C` side by side (R88). -/
theorem formatC_split (w : CommandWord) :
    opcodeField w ++ w.extractLsb' 40 20 ++ icsField w ++ clkField w ++ enlField w ++ latField w ++ datField w = w := by
  simp only [opcodeField, icsField, clkField, enlField, latField, datField,
    BitVec.extractLsb'_append_extractLsb'_eq_extractLsb']
  exact BitVec.extractLsb'_eq_self

/-- A word of format `C` with its reserved bits cleared is its fields (R88). -/
theorem formatC_named {w : CommandWord} {op : BitVec 4} (h : opcodeField w = op) :
    op ++ 0#20 ++ icsField w ++ clkField w ++ enlField w ++ latField w ++ datField w =
      w &&& 0xF00000FFFFFFFFFF#64 := by
  have hsplit := formatC_split (w &&& 0xF00000FFFFFFFFFF#64)
  simp (disch := decide) only [opcodeField, icsField, clkField, enlField, latField, datField, extractLsb'_and_ones,
    extractLsb'_and_zeros] at h hsplit ⊢
  rwa [h] at hsplit

/-- The field of format `E` as a bit (R88). -/
theorem ofBool_enField (w : CommandWord) : BitVec.ofBool (enField w) = w.extractLsb' 0 1 := by
  apply BitVec.eq_of_getLsbD_eq
  intro i hi
  obtain rfl : i = 0 := by omega
  simp [enField]

/-- A word is the fields of format `E` side by side (R88). -/
theorem formatE_split (w : CommandWord) : opcodeField w ++ w.extractLsb' 1 59 ++ w.extractLsb' 0 1 = w := by
  simp only [opcodeField, BitVec.extractLsb'_append_extractLsb'_eq_extractLsb']
  exact BitVec.extractLsb'_eq_self

/-- A word of format `E` with its reserved bits cleared is its fields (R88). -/
theorem formatE_named {w : CommandWord} {op : BitVec 4} (h : opcodeField w = op) :
    op ++ 0#59 ++ BitVec.ofBool (enField w) = w &&& 0xF000000000000001#64 := by
  have hsplit := formatE_split (w &&& 0xF000000000000001#64)
  rw [ofBool_enField]
  simp (disch := decide) only [opcodeField, extractLsb'_and_ones, extractLsb'_and_zeros] at h hsplit ⊢
  rwa [h] at hsplit

/-! ### Decoding command words -/

/-- The ways a command word can decode, each by its opcode (R89, R90). -/
inductive CommandCase (w : CommandWord) : Decoded → Prop where
  | nop (h : opcodeField w = 0x0#4) : CommandCase w (.instr .nop)
  | configure (h : opcodeField w = 0x1#4) :
      CommandCase w (.instr (.configure (icsField w) (clkField w) (enlField w) (latField w) (datField w)))
  | setDotCorrectionForIC (h : opcodeField w = 0x2#4) :
      CommandCase w (.instr (.setDotCorrectionForIC (icField w) (v0Field w) (v1Field w) (v2Field w)))
  | setDotCorrectionForAllICs (h : opcodeField w = 0x3#4) :
      CommandCase w (.instr (.setDotCorrectionForAllICs (v0Field w) (v1Field w) (v2Field w)))
  | setIntensityForIC (h : opcodeField w = 0x4#4) :
      CommandCase w (.instr (.setIntensityForIC (icField w) (v0Field w) (v1Field w) (v2Field w)))
  | setIntensityForAllICs (h : opcodeField w = 0x5#4) :
      CommandCase w (.instr (.setIntensityForAllICs (v0Field w) (v1Field w) (v2Field w)))
  | sendDotCorrection (h : opcodeField w = 0x6#4) : CommandCase w (.instr .sendDotCorrection)
  | sendIntensity (h : opcodeField w = 0x7#4) : CommandCase w (.instr .sendIntensity)
  | setEnabled (h : opcodeField w = 0x8#4) : CommandCase w (.instr (.setEnabled (enField w)))
  | reserved (h : 9 ≤ (opcodeField w).toNat) : CommandCase w (.reserved (opcodeField w))

/-- Everything decoding a command word can answer (R92). -/
theorem decode_command_cases (w : CommandWord) : CommandCase w (decode (.command w)) := by
  show CommandCase w (decodeCommand w)
  unfold decodeCommand
  split
  case h_1 h => exact .nop (BitVec.eq_of_toNat_eq h)
  case h_2 h => exact .configure (BitVec.eq_of_toNat_eq h)
  case h_3 h => exact .setDotCorrectionForIC (BitVec.eq_of_toNat_eq h)
  case h_4 h => exact .setDotCorrectionForAllICs (BitVec.eq_of_toNat_eq h)
  case h_5 h => exact .setIntensityForIC (BitVec.eq_of_toNat_eq h)
  case h_6 h => exact .setIntensityForAllICs (BitVec.eq_of_toNat_eq h)
  case h_7 h => exact .sendDotCorrection (BitVec.eq_of_toNat_eq h)
  case h_8 h => exact .sendIntensity (BitVec.eq_of_toNat_eq h)
  case h_9 h => exact .setEnabled (BitVec.eq_of_toNat_eq h)
  case h_10 =>
    simp only [imp_false] at *
    exact .reserved (by omega)

/-- An instruction decoded from a command word is encoded as the word's named bits (R88, R90 (b)). -/
theorem encode_of_decode_command {w : CommandWord} {i : Instr} (h : decode (.command w) = .instr i) :
    encode i = .command (w &&& namedBits (opcodeField w)) := by
  have hcase := decode_command_cases w
  rw [h] at hcase
  cases hcase with
  | nop hop => rw [hop]; exact congrArg Code.command (formatT_named hop)
  | configure hop => rw [hop]; exact congrArg Code.command (formatC_named hop)
  | setDotCorrectionForIC hop => rw [hop]; exact congrArg Code.command (formatS_named hop)
  | setDotCorrectionForAllICs hop => rw [hop]; exact congrArg Code.command (formatA_named hop)
  | setIntensityForIC hop => rw [hop]; exact congrArg Code.command (formatS_named hop)
  | setIntensityForAllICs hop => rw [hop]; exact congrArg Code.command (formatA_named hop)
  | sendDotCorrection hop => rw [hop]; exact congrArg Code.command (formatT_named hop)
  | sendIntensity hop => rw [hop]; exact congrArg Code.command (formatT_named hop)
  | setEnabled hop => rw [hop]; exact congrArg Code.command (formatE_named hop)

/-- Settles O3: by the format of each opcode, and by the constant bits of each packet. -/
theorem encodeDecodeClearsReservedBits : Obligations.EncodeDecodeClearsReservedBits :=
  ⟨fun _ _ => encode_of_decode_command, fun _ _ => encode_of_decode_packet⟩

/-! ### Decode and encode agree -/

/-- Decoding gives back an encoded instruction: each field of its format is the operand it was built from (R88, R89,
R95). -/
theorem decode_encode (i : Instr) : decode (encode i) = .instr i := by
  cases i with
  | nop => simp only [encode, decode, decodeCommand, formatT_fields]; rfl
  | configure ics clk en lat dat =>
    obtain ⟨hop, hics, hclk, hen, hlat, hdat⟩ := formatC_fields 0x1#4 0#20 ics clk en lat dat
    simp only [encode, decode, decodeCommand, hop, hics, hclk, hen, hlat, hdat]; rfl
  | setDotCorrectionForIC ic v0 v1 v2 =>
    obtain ⟨hop, hic, h2, h1, h0⟩ := formatS_fields 0x2#4 0#4 ic v0 v1 v2
    simp only [encode, decode, decodeCommand, hop, hic, h2, h1, h0]; rfl
  | setDotCorrectionForAllICs v0 v1 v2 =>
    obtain ⟨hop, h2, h1, h0⟩ := formatA_fields 0x3#4 0#12 v0 v1 v2
    simp only [encode, decode, decodeCommand, hop, h2, h1, h0]; rfl
  | setIntensityForIC ic v0 v1 v2 =>
    obtain ⟨hop, hic, h2, h1, h0⟩ := formatS_fields 0x4#4 0#4 ic v0 v1 v2
    simp only [encode, decode, decodeCommand, hop, hic, h2, h1, h0]; rfl
  | setIntensityForAllICs v0 v1 v2 =>
    obtain ⟨hop, h2, h1, h0⟩ := formatA_fields 0x5#4 0#12 v0 v1 v2
    simp only [encode, decode, decodeCommand, hop, h2, h1, h0]; rfl
  | sendDotCorrection => simp only [encode, decode, decodeCommand, formatT_fields]; rfl
  | sendIntensity => simp only [encode, decode, decodeCommand, formatT_fields]; rfl
  | setEnabled enabled =>
    obtain ⟨hop, hen⟩ := formatE_fields 0x8#4 0#59 enabled
    simp only [encode, decode, decodeCommand, hop, hen]; rfl
  | wireDC c0 c1 c2 =>
    obtain ⟨-, -, hc2, -, hc1, -, -, hc0⟩ := wireDC_positions 0b01#2 0#3 0#3 0#1 0#2 c0 c1 c2 _ rfl
    exact (decode_of_wireDC (Laws.RowMatch.wireDC c0 c1 c2)).trans (by rw [hc2, hc1, hc0])
  | wirePWM c0 c1 c2 =>
    obtain ⟨-, hc2, hc1, hc0⟩ := wirePWM_positions 0b00#2 c0 c1 c2 _ rfl
    have hpwm := Laws.RowMatch.wirePWM c0 c1 c2
    exact (decode_of_wirePWM (fun hdc => not_wirePWM_of_wireDC hdc hpwm) hpwm).trans (by rw [hc2, hc1, hc0])

/-- Settles O2: instruction by instruction, by the fields of its format. -/
theorem decodeEncodeRoundTrip : Obligations.DecodeEncodeRoundTrip := decode_encode

/-- No two instructions have the same word. -/
theorem encode_injective {i j : Instr} (h : encode i = encode j) : i = j :=
  Decoded.instr.inj ((decode_encode i).symm.trans ((congrArg decode h).trans (decode_encode j)))

/-- Opcodes 9 to 15 are reserved (R90). -/
theorem decode_command_reserved {w : CommandWord} (hop : 9 ≤ (opcodeField w).toNat) :
    decode (.command w) = .reserved (opcodeField w) := by
  have hcase := decode_command_cases w
  generalize decode (.command w) = d at hcase
  cases hcase with
  | reserved => rfl
  | _ h => rw [h] at hop; exact absurd hop (by decide)

/-- Every other opcode is an instruction's (R89). -/
theorem decode_command_instr {w : CommandWord} (hop : (opcodeField w).toNat < 9) :
    ∃ i, decode (.command w) = .instr i := by
  have hcase := decode_command_cases w
  generalize decode (.command w) = d at hcase ⊢
  cases hcase with
  | reserved h => omega
  | _ => exact ⟨_, rfl⟩

/-- Settles O4: what two words of one opcode decode to has, in both, the same named bits as its encoding, and so is
the same instruction. -/
theorem commandWordsDecodeByOpcode : Obligations.CommandWordsDecodeByOpcode := by
  refine fun w => ⟨decode_command_reserved, decode_command_instr, fun w' hop hnamed => ?_⟩
  by_cases hres : 9 ≤ (opcodeField w).toNat
  · rw [decode_command_reserved hres, decode_command_reserved (hop ▸ hres), hop]
  · obtain ⟨i, hi⟩ := decode_command_instr (Nat.not_le.1 hres)
    obtain ⟨i', hi'⟩ := decode_command_instr (hop ▸ Nat.not_le.1 hres)
    have hwords : encode i' = encode i := by
      rw [encode_of_decode_command hi, encode_of_decode_command hi', hop, hnamed]
    rw [hi, hi', encode_injective hwords]

/-- Settles O1: by running the decoder on each word. -/
theorem sampleWordsDecode : Obligations.SampleWordsDecode := by
  unfold Obligations.SampleWordsDecode
  decide

/-! ### What a step makes of a word at the port -/

/-- A table word that decodes is an instruction for the decoder (R95). -/
theorem decode_of_decodeTableWord {nbits w : Nat} {i : Instr} (h : decodeTableWord nbits w = some i) :
    decode (tableCode nbits w) = .instr i := by
  unfold decodeTableWord at h
  split at h
  · rename_i hdec
    rw [hdec, Option.some.inj h]
  · cases h
  · cases h

/-- Settles O44: the placed word is the head of the port, and is taken, decoded and run. -/
theorem fetchedTableWordRuns : Obligations.FetchedTableWordRuns := fun s nbits w i h =>
  stepRunsTheDecodedInstruction (s.withFetchWord nbits w) (tableCode nbits w) i s.port rfl rfl
    (decode_of_decodeTableWord h)

/-- Settles O45: the word at the head of the port decodes as stray. -/
theorem strayPacketWordsAreRefused : Obligations.StrayPacketWordsAreRefused := by
  intro s p rest hidle hport hdc haddr
  have hstray : decode (.packet p) = .stray p := decode_of_stray hdc (mt (wirePWM_iff_address p).1 haddr)
  rw [step_of_port hidle hport, accept, hstray]
  rfl

/-! ### A chain of exactly `N` ICs -/

/-- The chain has exactly `N` ICs, none of which has refused a window, and clock and latch are at rest. -/
structure Matched (s : State) : Prop where
  length : s.chain.length = s.cfg.chainLength.toNat
  unrefused : ∀ ic ∈ s.chain, ic.refused = none
  clk : s.lvl.clk = false
  lat : s.lvl.lat = !s.params.latchActive

/-- Clocking a word in makes no IC refuse: only a latch edge can (R66; log 8). -/
theorem pushWord_unrefused {ch : List ChainIC} (h : ∀ ic ∈ ch, ic.refused = none) (p : Packet) :
    ∀ ic ∈ pushWord p ch, ic.refused = none := by
  induction ch generalizing p with
  | nil => exact h
  | cons a ch ih =>
    rw [List.forall_mem_cons] at h
    rw [pushWord, List.forall_mem_cons]
    exact ⟨h.1, ih h.2 a.sr⟩

/-- An IC whose window has the constant bits of a packet does not refuse it (R66, R83, R84). -/
theorem latchIC_unrefused {ic : ChainIC} (hr : ic.refused = none)
    (hp : ic.sr &&& wireDCMask = wireDCMatch ∨ ic.sr &&& wirePWMMask = wirePWMMatch) (d k : Nat) :
    (latchIC d k ic).refused = none := by
  by_cases hdc : ic.sr &&& wireDCMask = wireDCMatch
  · rw [latchIC_dc hr hdc]; exact hr
  · rw [latchIC_pwm hr hdc (hp.resolve_left hdc)]; exact hr

theorem transmitPacket_keeps_matched {s : State} (h : Matched s) (p : Packet) : Matched (transmitPacket p s) := by
  obtain ⟨hchain, -⟩ : (transmitPacket p s).chain = pushWord p s.chain ∧ _ := emitPacket_chain p (withPkt p s) h.clk
  have hlvl : (transmitPacket p s).lvl = { s.lvl with clk := false, dat := p.getLsbD 0 } := emitPacket_lvl p _
  rw [transmitPacket_frame, hchain, hlvl]
  exact ⟨(pushWord_length p _).trans h.length, pushWord_unrefused h.unrefused p, rfl, h.lat⟩

/-- A Send on such a chain: each IC latches its own packet, which it does not refuse (R159). -/
theorem sent_keeps_matched {s : State} (h : Matched s) (space : Space) : Matched (sent space s) := by
  have hlen := sent_chain_length space h.clk h.lat
  obtain ⟨hclk, hlat⟩ := sent_lines_at_rest space h.clk
  refine ⟨by rw [hlen, h.length, (sent_sameToTheBlock space s).cfg], fun x hx => ?_, hclk, hlat⟩
  obtain ⟨m, hm, rfl⟩ := List.getElem_of_mem hx
  have hic : s.chain[m]? = some s.chain[m] := List.getElem?_eq_getElem (hlen ▸ hm)
  have hget := sent_chain_get space s h.length h.clk h.lat m _ hic
  rw [List.getElem?_eq_getElem hm, Option.some.injEq] at hget
  rw [hget]
  have hr : s.chain[m].refused = none := h.unrefused _ (List.mem_of_getElem? hic)
  exact latchIC_unrefused (ic := { s.chain[m] with sr := packetAt space s (m + 1) }) hr
    (packetAt_constantBits space s (m + 1)) _ _

/-- Every instruction of a configured block keeps the chain so. -/
theorem exec_keeps_matched {s t : State} {i : Instr} (h : exec i s = .next t) (hc : s.configured = true)
    (hs : Matched s) : Matched t := by
  cases exec_cases h with
  | same => exact hs
  | setDC => exact ⟨hs.length, hs.unrefused, hs.clk, hs.lat⟩
  | setPWM => exact ⟨hs.length, hs.unrefused, hs.clk, hs.lat⟩
  | send space => exact sent_keeps_matched hs space
  | enable enabled => rw [enabledTo_eq]; exact ⟨hs.length, hs.unrefused, hs.clk, hs.lat⟩
  | configure _ _ _ _ _ hn => exact absurd (hc.symm.trans hn) (by decide)
  | packet _ p => exact transmitPacket_keeps_matched hs p

/-- Settles O28: by the ways an instruction can answer a next state. -/
theorem matchedChainRefusesNothing : Obligations.MatchedChainRefusesNothing := by
  intro s t i hc hlen hr hclk hlat h
  obtain ⟨hlen', hr', hclk', hlat'⟩ := exec_keeps_matched h hc ⟨hlen, hr, hclk, hlat⟩
  exact ⟨hlen', hr', hclk', hlat'⟩

end Sys2Proof.Machine

/-! The statements of 40_array_setters.md: each setter fills a run of slots with its masked operands, channel by
channel, or stops where the array ends. -/

namespace Sys2Proof.Machine

/-! ### Masked operands -/

/-- A dot-correction setter stores the operand's low 7 bits (R110). -/
theorem dcOperand_eq (v : BitVec 16) : dcOperand v = (v &&& 0x7F#16).setWidth 8 := by
  apply BitVec.eq_of_toNat_eq
  have hmask : v.toNat &&& 127 = v.toNat % 128 := Nat.and_two_pow_sub_one_eq_mod v.toNat 7
  simp only [dcOperand, mask7, BitVec.toNat_setWidth, BitVec.toNat_and, BitVec.toNat_ofNat, Nat.reducePow,
    Nat.reduceMod, hmask]

/-- An intensity setter stores the operand's low 10 bits (R112). -/
theorem pwmOperand_eq (v : BitVec 16) : pwmOperand v = v &&& 0x3FF#16 := by
  apply BitVec.eq_of_toNat_eq
  have hmask : v.toNat &&& 1023 = v.toNat % 1024 := Nat.and_two_pow_sub_one_eq_mod v.toNat 10
  simp only [pwmOperand, mask10, BitVec.toNat_setWidth, BitVec.toNat_and, BitVec.toNat_ofNat, Nat.reducePow,
    Nat.reduceMod, hmask]
  omega

theorem dcOperand_le (v : BitVec 16) : (dcOperand v).toNat ≤ 127 := by
  simp only [dcOperand, mask7, BitVec.toNat_setWidth]
  omega

theorem pwmOperand_le (v : BitVec 16) : (pwmOperand v).toNat ≤ 1023 := by
  simp only [pwmOperand, mask10, BitVec.toNat_setWidth]
  omega

/-- Masking again what a dot-correction setter has stored changes nothing (R85, R132). -/
theorem mask7_dcOperand (v : BitVec 16) : mask7 (dcOperand v) = mask7 v :=
  BitVec.setWidth_setWidth_of_le _ (by decide)

theorem mask10_pwmOperand (v : BitVec 16) : mask10 (pwmOperand v) = mask10 v :=
  BitVec.setWidth_setWidth_of_le _ (by decide)

/-! ### A run of slots -/

theorem byChannel_some {α : Type} (i : Nat) (e0 e1 e2 : α) :
    byChannel i (some e0) (some e1) (some e2) = some (byChannel i e0 e1 e2) := by
  unfold byChannel
  split
  · rfl
  · split <;> rfl

/-- What holds of all three values holds of the one a channel gets. -/
theorem byChannel_of_all {α : Type} {P : α → Prop} {e0 e1 e2 : α} (h0 : P e0) (h1 : P e1) (h2 : P e2) (i : Nat) :
    P (byChannel i e0 e1 e2) := by
  unfold byChannel
  split
  · exact h0
  · split
    · exact h1
    · exact h2

/-- From `f` to `g` the elements `lo` to `hi - 1` have taken their channel's value, and no other has changed. -/
def Filled {α : Type} (lo hi : Nat) (e0 e1 e2 : α) (f g : Nat → α) : Prop :=
  ∀ i, g i = if lo ≤ i ∧ i < hi then byChannel i e0 e1 e2 else f i

theorem Filled.outside {α : Type} {lo hi i : Nat} {e0 e1 e2 : α} {f g : Nat → α} (h : Filled lo hi e0 e1 e2 f g)
    (hout : ¬ (lo ≤ i ∧ i < hi)) : g i = f i := (h i).trans (if_neg hout)

/-- The three slots of an IC that lies within the run (R30). -/
theorem Filled.slots {α : Type} {lo hi n : Nat} {e0 e1 e2 : α} {f g : Nat → α} (h : Filled lo hi e0 e1 e2 f g)
    (hn : 1 ≤ n) (hlo : lo ≤ 3 * n - 3) (hhi : 3 * n ≤ hi) :
    g (3 * n - 3) = e0 ∧ g (3 * n - 2) = e1 ∧ g (3 * n - 1) = e2 := by
  obtain ⟨k, rfl⟩ : ∃ k, n = k + 1 := ⟨n - 1, by omega⟩
  refine ⟨(h _).trans ?_, (h _).trans ?_, (h _).trans ?_⟩ <;> rw [if_pos (by omega), byChannel]
  · exact if_pos (by omega)
  · rw [if_neg (by omega), if_pos (by omega)]
  · rw [if_neg (by omega), if_neg (by omega)]

/-- An element is as before, or all that the three values have in common holds of it. -/
theorem Filled.old_or {α : Type} {lo hi : Nat} {e0 e1 e2 : α} {f g : Nat → α} {P : α → Prop}
    (h : Filled lo hi e0 e1 e2 f g) (h0 : P e0) (h1 : P e1) (h2 : P e2) (j : Nat) : g j = f j ∨ P (g j) := by
  rw [h j]
  split
  · exact .inr (byChannel_of_all h0 h1 h2 j)
  · exact .inl rfl

/-- The same run filled with the same values over two arrays: an element is untouched in both or alike in both. -/
theorem Filled.agree {α : Type} {lo hi : Nat} {e0 e1 e2 : α} {f g f' g' : Nat → α} (h : Filled lo hi e0 e1 e2 f g)
    (h' : Filled lo hi e0 e1 e2 f' g') (j : Nat) : (g j = f j ∧ g' j = f' j) ∨ g' j = g j := by
  by_cases hj : lo ≤ j ∧ j < hi
  · exact .inr ((h' j).trans ((if_pos hj).trans ((h j).trans (if_pos hj)).symm))
  · exact .inl ⟨h.outside hj, h'.outside hj⟩

/-- What was written, read over the free values of the unwritten elements (U7; log 1). -/
theorem Filled.getD {α : Type} {lo hi : Nat} {e0 e1 e2 : α} {f g : Nat → Option α}
    (h : Filled lo hi (some e0) (some e1) (some e2) f g) (free : Nat → α) :
    Filled lo hi e0 e1 e2 (fun i => (f i).getD (free i)) (fun i => (g i).getD (free i)) := by
  intro i
  simp only [h i, byChannel_some]
  split <;> rfl

/-! ### Array writes -/

/-- The three slots of IC `n` end just below `3n` (R30). -/
theorem slot_eq {n : Nat} (hn : 1 ≤ n) : slot n 0 = 3 * n - 3 ∧ slot n 1 = 3 * n - 2 ∧ slot n 2 = 3 * n - 1 := by
  simp only [slot]
  omega

/-- All that writes to the slots `lo` to `hi - 1` of an array of length `len` can do: fill them when the array is long
enough, otherwise fill those that are there and stop at the first that is not (R52, R111, U1). -/
structure Writes {w : Nat} (len lo hi : Nat) (e0 e1 e2 : BitVec w) (m : Mem w) (r : Except (WriteStop w) (Mem w)) :
    Prop where
  fit : hi ≤ len → ∃ m', r = .ok m' ∧ Filled lo hi (some e0) (some e1) (some e2) m.get? m'.get?
  short : len < hi → ∃ d, r = .error { index := max len lo, left := d } ∧
    Filled lo len (some e0) (some e1) (some e2) m.get? d.get?

/-- The writes of one IC (R110). -/
theorem writeIC_writes {w n : Nat} (hn : 1 ≤ n) (len : Nat) (e0 e1 e2 : BitVec w) (m : Mem w) :
    Writes len (3 * n - 3) (3 * n) e0 e1 e2 m (writeIC len n e0 e1 e2 m) := by
  obtain ⟨h0, h1, h2⟩ := slot_eq hn
  constructor
  · intro hlen
    refine ⟨_, by rw [writeIC_eq, if_pos ((slot_lt_iff hn).2 hlen)], fun i => ?_⟩
    simp only [Mem.get?_set, h0, h1, h2]
    grind [byChannel]
  · intro hlen
    obtain ⟨d, hd, hget, -⟩ := writeIC_stop e0 e1 e2 m hn hlen
    exact ⟨d, by rw [hd, h0], fun i => by rw [hget, h0, byChannel_some]⟩

/-- The writes of ICs 1 to `n` (R111). -/
theorem writeICs_writes {w : Nat} (len n : Nat) (e0 e1 e2 : BitVec w) (m : Mem w) :
    Writes len 0 (3 * n) e0 e1 e2 m (writeICs len e0 e1 e2 n m) := by
  constructor
  · intro hlen
    obtain ⟨m', hm', hget, -⟩ := writeICs_ok (e0 := e0) (e1 := e1) (e2 := e2) (m := m) hlen
    exact ⟨m', hm', fun i => by simp only [hget, byChannel_some, Nat.zero_le, true_and]⟩
  · intro hlen
    obtain ⟨d, hd, hget, -⟩ := writeICs_stop (e0 := e0) (e1 := e1) (e2 := e2) (m := m) hlen
    exact ⟨d, by rw [hd, Nat.max_zero], fun i => by simp only [hget, byChannel_some, Nat.zero_le, true_and]⟩

/-! ### What a setter of each kind can do past its gate -/

/-- The outcome `o` on `s` is that of writes to the slots `lo` to `hi - 1` of DCMEM. -/
structure FillsDC (s : State) (lo hi : Nat) (e0 e1 e2 : BitVec 8) (o : Host.Outcome State Fault Refusal) : Prop where
  fit : hi ≤ s.params.dcLen → ∃ m, o = .next { s with dcmem := m } ∧
    Filled lo hi e0 e1 e2 s.dcElem (State.dcElem { s with dcmem := m })
  short : s.params.dcLen < hi → ∃ d, o = .fault (.arrayBounds .dcmem (max s.params.dcLen lo) d s.pwmmem) ∧
    Filled lo s.params.dcLen e0 e1 e2 s.dcElem (State.dcElem { s with dcmem := d })

/-- The outcome `o` on `s` is that of writes to the slots `lo` to `hi - 1` of PWMMEM. -/
structure FillsPWM (s : State) (lo hi : Nat) (e0 e1 e2 : BitVec 16) (o : Host.Outcome State Fault Refusal) : Prop where
  fit : hi ≤ s.params.pwmLen → ∃ m, o = .next { s with pwmmem := m } ∧
    Filled lo hi e0 e1 e2 s.pwmElem (State.pwmElem { s with pwmmem := m })
  short : s.params.pwmLen < hi → ∃ d, o = .fault (.arrayBounds .pwmmem (max s.params.pwmLen lo) s.dcmem d) ∧
    Filled lo s.params.pwmLen e0 e1 e2 s.pwmElem (State.pwmElem { s with pwmmem := d })

theorem setDCMem_fills {s : State} {lo hi : Nat} {e0 e1 e2 : BitVec 8} {r : Except (WriteStop 8) (Mem 8)}
    (h : Writes s.params.dcLen lo hi e0 e1 e2 s.dcmem r) : FillsDC s lo hi e0 e1 e2 (setDCMem s r) := by
  constructor
  · intro hlen
    obtain ⟨m, rfl, hm⟩ := h.fit hlen
    exact ⟨m, rfl, hm.getD _⟩
  · intro hlen
    obtain ⟨d, rfl, hd⟩ := h.short hlen
    exact ⟨d, rfl, hd.getD _⟩

theorem setPWMMem_fills {s : State} {lo hi : Nat} {e0 e1 e2 : BitVec 16} {r : Except (WriteStop 16) (Mem 16)}
    (h : Writes s.params.pwmLen lo hi e0 e1 e2 s.pwmmem r) : FillsPWM s lo hi e0 e1 e2 (setPWMMem s r) := by
  constructor
  · intro hlen
    obtain ⟨m, rfl, hm⟩ := h.fit hlen
    exact ⟨m, rfl, hm.getD _⟩
  · intro hlen
    obtain ⟨d, rfl, hd⟩ := h.short hlen
    exact ⟨d, rfl, hd.getD _⟩

/-! ### The four setters on a configured block -/

section
variable {s : State} (hc : s.configured = true) (v0 v1 v2 : BitVec 16)
include hc

/-- A request out of range is dropped as a whole (R110). -/
theorem exec_setDotCorrectionForIC_dropped {ic : BitVec 8} (hr : ¬ inRange ic s.cfg.chainLength = true) :
    exec (.setDotCorrectionForIC ic v0 v1 v2) s = .next s := (whenConfigured_true hc).trans (if_neg hr)

theorem exec_setIntensityForIC_dropped {ic : BitVec 8} (hr : ¬ inRange ic s.cfg.chainLength = true) :
    exec (.setIntensityForIC ic v0 v1 v2) s = .next s := (whenConfigured_true hc).trans (if_neg hr)

/-- A request in range fills the three slots of its IC (R110). -/
theorem exec_setDotCorrectionForIC_fills {ic : BitVec 8} (hr : inRange ic s.cfg.chainLength = true) :
    FillsDC s (3 * ic.toNat - 3) (3 * ic.toNat) (dcOperand v0) (dcOperand v1) (dcOperand v2)
      (exec (.setDotCorrectionForIC ic v0 v1 v2) s) := by
  rw [exec, execSetDotCorrectionForIC, whenConfigured_true hc, if_pos hr]
  exact setDCMem_fills (writeIC_writes ((inRange_iff _ _).1 hr).1 _ _ _ _ _)

/-- A request in range fills the three slots of its IC (R112). -/
theorem exec_setIntensityForIC_fills {ic : BitVec 8} (hr : inRange ic s.cfg.chainLength = true) :
    FillsPWM s (3 * ic.toNat - 3) (3 * ic.toNat) (pwmOperand v0) (pwmOperand v1) (pwmOperand v2)
      (exec (.setIntensityForIC ic v0 v1 v2) s) := by
  rw [exec, execSetIntensityForIC, whenConfigured_true hc, if_pos hr]
  exact setPWMMem_fills (writeIC_writes ((inRange_iff _ _).1 hr).1 _ _ _ _ _)

/-- A broadcast fills the slots of every IC of the chain (R111). -/
theorem exec_setDotCorrectionForAllICs_fills :
    FillsDC s 0 (3 * s.count) (dcOperand v0) (dcOperand v1) (dcOperand v2)
      (exec (.setDotCorrectionForAllICs v0 v1 v2) s) := by
  rw [exec, execSetDotCorrectionForAllICs, whenConfigured_true hc]
  exact setDCMem_fills (writeICs_writes _ _ _ _ _ _)

/-- A broadcast fills the slots of every IC of the chain (R113). -/
theorem exec_setIntensityForAllICs_fills :
    FillsPWM s 0 (3 * s.count) (pwmOperand v0) (pwmOperand v1) (pwmOperand v2)
      (exec (.setIntensityForAllICs v0 v1 v2) s) := by
  rw [exec, execSetIntensityForAllICs, whenConfigured_true hc]
  exact setPWMMem_fills (writeICs_writes _ _ _ _ _ _)

end

/-! ### The rules of the four setters -/

/-- An IC number that is 0 or above the chain length is out of range (R110). -/
theorem not_inRange {ic n : BitVec 8} (h : ic.toNat < 1 ∨ n.toNat < ic.toNat) : ¬ inRange ic n = true := by
  rw [inRange_iff]
  omega

/-- Settles O12: a request in range fills the slots of its IC. -/
theorem setDotCorrectionForICRule : Obligations.SetDotCorrectionForICRule := by
  intro s ic v0 v1 v2
  simp only [← dcOperand_eq]
  refine ⟨rfl, fun hc => ⟨fun hout => exec_setDotCorrectionForIC_dropped hc v0 v1 v2 (not_inRange hout),
    fun hpos hle => ?_⟩⟩
  obtain ⟨hfit, hshort⟩ := exec_setDotCorrectionForIC_fills hc v0 v1 v2 ((inRange_iff ic _).2 ⟨hpos, hle⟩)
  refine ⟨fun hlen => ?_, hshort⟩
  obtain ⟨m, hexec, hm⟩ := hfit hlen
  obtain ⟨h0, h1, h2⟩ := hm.slots hpos le_rfl le_rfl
  exact ⟨_, hexec, rfl, h0, h1, h2, fun i hi => hm.outside (by omega)⟩

/-- Settles O13: a request in range fills the slots of its IC. -/
theorem setIntensityForICRule : Obligations.SetIntensityForICRule := by
  intro s ic v0 v1 v2
  simp only [← pwmOperand_eq]
  refine ⟨rfl, fun hc => ⟨fun hout => exec_setIntensityForIC_dropped hc v0 v1 v2 (not_inRange hout),
    fun hpos hle => ?_⟩⟩
  obtain ⟨hfit, hshort⟩ := exec_setIntensityForIC_fills hc v0 v1 v2 ((inRange_iff ic _).2 ⟨hpos, hle⟩)
  refine ⟨fun hlen => ?_, hshort⟩
  obtain ⟨m, hexec, hm⟩ := hfit hlen
  obtain ⟨h0, h1, h2⟩ := hm.slots hpos le_rfl le_rfl
  exact ⟨_, hexec, rfl, h0, h1, h2, fun i hi => hm.outside (by omega)⟩

/-- Settles O14: a broadcast fills the slots from 0 on, up to `3N` or to where the array ends. -/
theorem setDotCorrectionForAllICsRule : Obligations.SetDotCorrectionForAllICsRule := by
  intro s v0 v1 v2
  simp only [← dcOperand_eq]
  refine ⟨rfl, fun hc => ?_⟩
  obtain ⟨hfit, hshort⟩ := exec_setDotCorrectionForAllICs_fills hc v0 v1 v2
  constructor
  · intro hlen
    obtain ⟨m, hexec, hm⟩ := hfit hlen
    exact ⟨_, hexec, rfl, fun n hpos hle => hm.slots hpos (Nat.zero_le _) (Nat.mul_le_mul_left 3 hle),
      fun i hi => hm.outside (fun hin => absurd hin.2 (Nat.not_lt.2 hi))⟩
  · intro hlen
    obtain ⟨d, hexec, hd⟩ := hshort hlen
    exact ⟨d, by rw [hexec, Nat.max_zero], by simpa only [Filled, Nat.zero_le, true_and] using hd⟩

/-- Settles O15: a broadcast fills the slots from 0 on, up to `3N` or to where the array ends. -/
theorem setIntensityForAllICsRule : Obligations.SetIntensityForAllICsRule := by
  intro s v0 v1 v2
  simp only [← pwmOperand_eq]
  refine ⟨rfl, fun hc => ?_⟩
  obtain ⟨hfit, hshort⟩ := exec_setIntensityForAllICs_fills hc v0 v1 v2
  constructor
  · intro hlen
    obtain ⟨m, hexec, hm⟩ := hfit hlen
    exact ⟨_, hexec, rfl, fun n hpos hle => hm.slots hpos (Nat.zero_le _) (Nat.mul_le_mul_left 3 hle),
      fun i hi => hm.outside (fun hin => absurd hin.2 (Nat.not_lt.2 hi))⟩
  · intro hlen
    obtain ⟨d, hexec, hd⟩ := hshort hlen
    exact ⟨d, by rw [hexec, Nat.max_zero], by simpa only [Filled, Nat.zero_le, true_and] using hd⟩

/-! ### A setter of either kind -/

/-- A dropped request is one that fills no slot. -/
theorem fillsDC_nothing (s : State) (e0 e1 e2 : BitVec 8) : FillsDC s 0 0 e0 e1 e2 (.next s) :=
  ⟨fun _ => ⟨s.dcmem, rfl, fun _ => (if_neg (by omega)).symm⟩, fun h => absurd h (Nat.not_lt_zero _)⟩

theorem fillsPWM_nothing (s : State) (e0 e1 e2 : BitVec 16) : FillsPWM s 0 0 e0 e1 e2 (.next s) :=
  ⟨fun _ => ⟨s.pwmmem, rfl, fun _ => (if_neg (by omega)).symm⟩, fun h => absurd h (Nat.not_lt_zero _)⟩

/-- A dot-correction setter fills a run of DCMEM, the same on every configured block of one configuration. -/
theorem exec_dcSetter_fills {i : Instr} (hset : isSetterOf .dcmem i = true) (c : Cfg) :
    ∃ lo hi v0 v1 v2, ∀ s : State, s.configured = true → s.cfg = c →
      FillsDC s lo hi (dcOperand v0) (dcOperand v1) (dcOperand v2) (exec i s) := by
  cases i with
  | setDotCorrectionForIC ic v0 v1 v2 =>
    by_cases hr : inRange ic c.chainLength = true
    · refine ⟨3 * ic.toNat - 3, 3 * ic.toNat, v0, v1, v2, fun s hs hcfg => ?_⟩
      subst hcfg
      exact exec_setDotCorrectionForIC_fills hs v0 v1 v2 hr
    · refine ⟨0, 0, v0, v1, v2, fun s hs hcfg => ?_⟩
      subst hcfg
      rw [exec_setDotCorrectionForIC_dropped hs v0 v1 v2 hr]
      exact fillsDC_nothing s _ _ _
  | setDotCorrectionForAllICs v0 v1 v2 =>
    refine ⟨0, 3 * c.chainLength.toNat, v0, v1, v2, fun s hs hcfg => ?_⟩
    subst hcfg
    exact exec_setDotCorrectionForAllICs_fills hs v0 v1 v2
  | _ => cases hset

/-- An intensity setter fills a run of PWMMEM, the same on every configured block of one configuration. -/
theorem exec_pwmSetter_fills {i : Instr} (hset : isSetterOf .pwmmem i = true) (c : Cfg) :
    ∃ lo hi v0 v1 v2, ∀ s : State, s.configured = true → s.cfg = c →
      FillsPWM s lo hi (pwmOperand v0) (pwmOperand v1) (pwmOperand v2) (exec i s) := by
  cases i with
  | setIntensityForIC ic v0 v1 v2 =>
    by_cases hr : inRange ic c.chainLength = true
    · refine ⟨3 * ic.toNat - 3, 3 * ic.toNat, v0, v1, v2, fun s hs hcfg => ?_⟩
      subst hcfg
      exact exec_setIntensityForIC_fills hs v0 v1 v2 hr
    · refine ⟨0, 0, v0, v1, v2, fun s hs hcfg => ?_⟩
      subst hcfg
      rw [exec_setIntensityForIC_dropped hs v0 v1 v2 hr]
      exact fillsPWM_nothing s _ _ _
  | setIntensityForAllICs v0 v1 v2 =>
    refine ⟨0, 3 * c.chainLength.toNat, v0, v1, v2, fun s hs hcfg => ?_⟩
    subst hcfg
    exact exec_setIntensityForAllICs_fills hs v0 v1 v2
  | _ => cases hset

/-- A setter is refused before Configure (R23). -/
theorem exec_setter_unconfigured {s : State} {space : Space} {i : Instr} (hset : isSetterOf space i = true)
    (hs : s.configured = false) : exec i s = .refused (.unconfigured i) :=
  exec_unconfigured hs (by rintro rfl; cases hset) (by rintro _ _ _ _ _ rfl; cases hset)

/-- A setter that completes has passed the gate (R23). -/
theorem configured_of_exec_setter {s t : State} {space : Space} {i : Instr} (hset : isSetterOf space i = true)
    (h : exec i s = .next t) : s.configured = true := by
  by_contra hs
  rw [exec_setter_unconfigured hset (by simpa using hs)] at h
  cases h

/-- Writes of DCMEM that complete have filled their run and moved nothing else. -/
theorem FillsDC.next {s t : State} {lo hi : Nat} {e0 e1 e2 : BitVec 8} (h : FillsDC s lo hi e0 e1 e2 (.next t)) :
    t = { s with dcmem := t.dcmem } ∧ Filled lo hi e0 e1 e2 s.dcElem t.dcElem := by
  rcases Nat.lt_or_ge s.params.dcLen hi with hlen | hlen
  · obtain ⟨d, hd, -⟩ := h.short hlen
    cases hd
  · obtain ⟨m, hm, hfill⟩ := h.fit hlen
    cases hm
    exact ⟨rfl, hfill⟩

theorem FillsPWM.next {s t : State} {lo hi : Nat} {e0 e1 e2 : BitVec 16} (h : FillsPWM s lo hi e0 e1 e2 (.next t)) :
    t = { s with pwmmem := t.pwmmem } ∧ Filled lo hi e0 e1 e2 s.pwmElem t.pwmElem := by
  rcases Nat.lt_or_ge s.params.pwmLen hi with hlen | hlen
  · obtain ⟨d, hd, -⟩ := h.short hlen
    cases hd
  · obtain ⟨m, hm, hfill⟩ := h.fit hlen
    cases hm
    exact ⟨rfl, hfill⟩

/-- Settles O18: what a setter of either kind fills its run with is in the legal range of that kind. -/
theorem settersStoreLegalValues : Obligations.SettersStoreLegalValues := by
  intro s t space i hset h
  have hc := configured_of_exec_setter hset h
  cases space with
  | dcmem =>
    obtain ⟨lo, hi, v0, v1, v2, hfills⟩ := exec_dcSetter_fills hset s.cfg
    obtain ⟨ht, hfill⟩ := (h ▸ hfills s hc rfl).next
    exact ⟨hfill.old_or (P := fun x => x.toNat ≤ 127) (dcOperand_le v0) (dcOperand_le v1) (dcOperand_le v2),
      fun j => .inl (by rw [ht]; rfl)⟩
  | pwmmem =>
    obtain ⟨lo, hi, v0, v1, v2, hfills⟩ := exec_pwmSetter_fills hset s.cfg
    obtain ⟨ht, hfill⟩ := (h ▸ hfills s hc rfl).next
    exact ⟨fun j => .inl (by rw [ht]; rfl),
      hfill.old_or (P := fun x => x.toNat ≤ 1023) (pwmOperand_le v0) (pwmOperand_le v1) (pwmOperand_le v2)⟩

/-- The three ways a setter's outcomes on two states can be alike (R114). -/
inductive SetAlike (s s' : State) : Host.Outcome State Fault Refusal → Host.Outcome State Fault Refusal → Prop where
  /-- Both complete: only the arrays have moved, each element untouched in both or alike in both. -/
  | next (t t' : State) (ht : t = { s with dcmem := t.dcmem, pwmmem := t.pwmmem })
      (ht' : t' = { s' with dcmem := t'.dcmem, pwmmem := t'.pwmmem })
      (hdc : ∀ j, (t.dcElem j = s.dcElem j ∧ t'.dcElem j = s'.dcElem j) ∨ t'.dcElem j = t.dcElem j)
      (hpwm : ∀ j, (t.pwmElem j = s.pwmElem j ∧ t'.pwmElem j = s'.pwmElem j) ∨ t'.pwmElem j = t.pwmElem j) :
      SetAlike s s' (.next t) (.next t')
  /-- Both fault at the same index of the same array. -/
  | fault (sp : Space) (j : Nat) (d d' : Mem 8) (p p' : Mem 16) :
      SetAlike s s' (.fault (.arrayBounds sp j d p)) (.fault (.arrayBounds sp j d' p'))
  /-- Both are refused. -/
  | refused (r : Refusal) : SetAlike s s' (.refused r) (.refused r)

theorem FillsDC.alike {s s' : State} {lo hi : Nat} {e0 e1 e2 : BitVec 8} {o o' : Host.Outcome State Fault Refusal}
    (h : FillsDC s lo hi e0 e1 e2 o) (h' : FillsDC s' lo hi e0 e1 e2 o') (hp : s'.params = s.params) :
    SetAlike s s' o o' := by
  rcases Nat.lt_or_ge s.params.dcLen hi with hlen | hlen
  · obtain ⟨d, rfl, -⟩ := h.short hlen
    obtain ⟨d', rfl, -⟩ := h'.short (by rwa [hp])
    rw [hp]
    exact .fault _ _ _ _ _ _
  · obtain ⟨m, rfl, hfill⟩ := h.fit hlen
    obtain ⟨m', rfl, hfill'⟩ := h'.fit (by rwa [hp])
    exact .next _ _ rfl rfl (hfill.agree hfill') fun _ => .inl ⟨rfl, rfl⟩

theorem FillsPWM.alike {s s' : State} {lo hi : Nat} {e0 e1 e2 : BitVec 16} {o o' : Host.Outcome State Fault Refusal}
    (h : FillsPWM s lo hi e0 e1 e2 o) (h' : FillsPWM s' lo hi e0 e1 e2 o') (hp : s'.params = s.params) :
    SetAlike s s' o o' := by
  rcases Nat.lt_or_ge s.params.pwmLen hi with hlen | hlen
  · obtain ⟨d, rfl, -⟩ := h.short hlen
    obtain ⟨d', rfl, -⟩ := h'.short (by rwa [hp])
    rw [hp]
    exact .fault _ _ _ _ _ _
  · obtain ⟨m, rfl, hfill⟩ := h.fit hlen
    obtain ⟨m', rfl, hfill'⟩ := h'.fit (by rwa [hp])
    exact .next _ _ rfl rfl (fun _ => .inl ⟨rfl, rfl⟩) (hfill.agree hfill')

/-- A setter's outcome depends on CONFIGURED, CFG and the parameters alone, but for what it leaves as it was. -/
theorem exec_setter_alike {s s' : State} {space : Space} {i : Instr} (hset : isSetterOf space i = true)
    (hconf : s'.configured = s.configured) (hcfg : s'.cfg = s.cfg) (hp : s'.params = s.params) :
    SetAlike s s' (exec i s) (exec i s') := by
  cases hc : s.configured with
  | false =>
    rw [exec_setter_unconfigured hset hc, exec_setter_unconfigured hset (hconf.trans hc)]
    exact .refused _
  | true =>
    cases space with
    | dcmem =>
      obtain ⟨lo, hi, v0, v1, v2, hfills⟩ := exec_dcSetter_fills hset s.cfg
      exact (hfills s hc rfl).alike (hfills s' (hconf.trans hc) hcfg) hp
    | pwmmem =>
      obtain ⟨lo, hi, v0, v1, v2, hfills⟩ := exec_pwmSetter_fills hset s.cfg
      exact (hfills s hc rfl).alike (hfills s' (hconf.trans hc) hcfg) hp

/-- Settles O17: on both states a setter fills the same run with the same values, or stops at the same place. -/
theorem settersDoNotReadWhatTheyWrite : Obligations.SettersDoNotReadWhatTheyWrite := by
  intro s s' space i hset hs'
  have halike : SetAlike s s' (exec i s) (exec i s') :=
    exec_setter_alike hset (by rw [hs']) (by rw [hs']) (by rw [hs'])
  generalize exec i s = o, exec i s' = o' at halike ⊢
  cases halike with
  | next t t' ht ht' hdc hpwm =>
    refine ⟨fun u hu => ?_, fun _ _ _ _ h => (by cases h), fun _ h => (by cases h)⟩
    cases hu
    exact ⟨t', rfl, by rw [ht], by rw [ht', ht, hs'], hdc, hpwm⟩
  | fault sp j d d' p p' =>
    exact ⟨fun _ h => (by cases h), fun _ _ _ _ h => (by cases h; exact ⟨d', p', rfl⟩), fun _ h => (by cases h)⟩
  | refused r => exact ⟨fun _ h => (by cases h), fun _ _ _ _ h => (by cases h), fun _ h => h⟩

/-! ### A broadcast and its Send -/

/-- When the array holds one packet at every IC, that packet is all a Send's loop emits (R56). -/
theorem packetsDown_eq_replicate {space : Space} {s : State} {p : Packet} {n : Nat}
    (h : ∀ k, 1 ≤ k → k ≤ n → packetAt space s k = p) : packetsDown space s n = List.replicate n p := by
  induction n with
  | zero => rfl
  | succ n ih =>
    rw [packetsDown, List.replicate_succ, h (n + 1) (by omega) le_rfl, ih fun k hpos hle => h k hpos (by omega)]

/-- The Send of such an array completes, and emits that packet once per IC before its latch pulse (R150, R151). -/
theorem exec_sendOf_one_packet {space : Space} {s : State} {p : Packet} (hc : s.configured = true)
    (hf : 3 * s.count ≤ s.params.len space) (h : ∀ k, 1 ≤ k → k ≤ s.count → packetAt space s k = p) :
    ∃ u, exec (sendOf space) s = .next u ∧
      u.trace = s.trace ++ (List.replicate s.count (packetEvents p)).flatten ++ latchEvents s.params :=
  ⟨_, exec_sendOf_of_fit hc hf, by
    rw [sent_trace, sendEvents, packetsDown_eq_replicate h, List.flatMap_replicate, List.append_assoc]⟩

/-- A dot-correction packet is built from its elements' low 7 bits alone (R81). -/
theorem encodeDotCorrection_dcOperand (v0 v1 v2 : BitVec 16) :
    encodeDotCorrection (dcOperand v0) (dcOperand v1) (dcOperand v2) = encodeDotCorrection v0 v1 v2 := by
  simp only [encodeDotCorrection, mask7_dcOperand]

theorem encodeIntensity_pwmOperand (v0 v1 v2 : BitVec 16) :
    encodeIntensity (pwmOperand v0) (pwmOperand v1) (pwmOperand v2) = encodeIntensity v0 v1 v2 := by
  simp only [encodeIntensity, mask10_pwmOperand]

/-- Settles O32: after the broadcast every IC's slots encode to the one packet, which is what the Send emits. -/
theorem broadcastThenSendSendsOnePacketToAll : Obligations.BroadcastThenSendSendsOnePacketToAll := by
  intro s v0 v1 v2 hc hfits
  obtain ⟨hdc, hpwm⟩ := hfits
  constructor
  · obtain ⟨m, hexec, hm⟩ := (exec_setDotCorrectionForAllICs_fills hc v0 v1 v2).fit hdc
    refine ⟨_, exists_and_left.2 ⟨hexec, exec_sendOf_one_packet (space := .dcmem) hc hdc fun k hpos hle => ?_⟩⟩
    obtain ⟨h0, h1, h2⟩ := hm.slots hpos (Nat.zero_le _) (Nat.mul_le_mul_left 3 hle)
    obtain ⟨hs0, hs1, hs2⟩ := slot_eq hpos
    rw [packetAt, hs0, hs1, hs2, h0, h1, h2, encodeDotCorrection_dcOperand]
  · obtain ⟨m, hexec, hm⟩ := (exec_setIntensityForAllICs_fills hc v0 v1 v2).fit hpwm
    refine ⟨_, exists_and_left.2 ⟨hexec, exec_sendOf_one_packet (space := .pwmmem) hc hpwm fun k hpos hle => ?_⟩⟩
    obtain ⟨h0, h1, h2⟩ := hm.slots hpos (Nat.zero_le _) (Nat.mul_le_mul_left 3 hle)
    obtain ⟨hs0, hs1, hs2⟩ := slot_eq hpos
    rw [packetAt, hs0, hs1, hs2, h0, h1, h2, encodeIntensity_pwmOperand]

end Sys2Proof.Machine

/-! The statements of 41_packet_encoder.md: the two encoders, what a packet says of the elements it was built from,
and how a packet goes out by itself. -/

namespace Sys2Proof.Machine

/-! ### Constant bits and ranges -/

/-- The constant bits of R81, for elements of any width. -/
theorem encodeDotCorrection_constantBits {w : Nat} (c0 c1 c2 : BitVec w) :
    encodeDotCorrection c0 c1 c2 &&& wireDCMask = wireDCMatch :=
  Laws.RowMatch.wireDC (mask7 c0) (mask7 c1) (mask7 c2)

/-- The constant bits of R82, for elements of any width. -/
theorem encodeIntensity_constantBits {w : Nat} (c0 c1 c2 : BitVec w) :
    encodeIntensity c0 c1 c2 &&& wirePWMMask = wirePWMMatch :=
  Laws.RowMatch.wirePWM (mask10 c0) (mask10 c1) (mask10 c2)

/-- The constant bits of a word bound it: the least such word has its other bits 0, the greatest has them 1. -/
theorem range_of_and_eq {w : Nat} {x mask mtch : BitVec w} (h : x &&& mask = mtch) :
    mtch.toNat ≤ x.toNat ∧ x.toNat ≤ (mtch ||| ~~~mask).toNat := by
  have hmax : x &&& (mtch ||| ~~~mask) = x := by
    rw [← h]
    ext i hi
    cases hx : x[i] <;> simp [hx]
  constructor
  · rw [← h, BitVec.toNat_and]
    exact Nat.and_le_left
  · calc x.toNat = (x &&& (mtch ||| ~~~mask)).toNat := by rw [hmax]
      _ ≤ (mtch ||| ~~~mask).toNat := by rw [BitVec.toNat_and]; exact Nat.and_le_right

/-- A word up to `0x3FFFFFFF` has the address `00` (R82, R131). -/
theorem address_zero_of_le {p : Packet} (h : p.toNat ≤ 0x3FFFFFFF) : p.extractLsb' 30 2 = 0#2 := by
  apply BitVec.eq_of_toNat_eq
  simp only [BitVec.extractLsb'_toNat, Nat.shiftRight_eq_div_pow, BitVec.toNat_ofNat]
  omega

/-! ### Packets and masked elements -/

/-- A dot-correction packet is rebuilt by the encoder from its three fields (R134). -/
theorem encodeDotCorrection_of_fields {p : Packet} (h : p &&& wireDCMask = wireDCMatch) :
    encodeDotCorrection (p.extractLsb' 0 7) (p.extractLsb' 10 7) (p.extractLsb' 20 7) = p :=
  Code.packet.inj ((encode_wireDC _ _ _).symm.trans (congrArg Code.packet (wireDC_rebuild h)))

/-- An intensity packet is rebuilt by the encoder from its three fields (R134). -/
theorem encodeIntensity_of_fields {p : Packet} (h : p.extractLsb' 30 2 = 0#2) :
    encodeIntensity (p.extractLsb' 0 10) (p.extractLsb' 10 10) (p.extractLsb' 20 10) = p :=
  Code.packet.inj ((encode_wirePWM _ _ _).symm.trans
    (congrArg Code.packet (wirePWM_rebuild ((wirePWM_iff_address p).2 h))))

/-- Two dot-correction packets are equal exactly when their masked elements are: the packet is the word of the
instruction with those values, and no two instructions share a word (R134). -/
theorem encodeDotCorrection_eq_iff {w v : Nat} (c0 c1 c2 : BitVec w) (d0 d1 d2 : BitVec v) :
    encodeDotCorrection c0 c1 c2 = encodeDotCorrection d0 d1 d2 ↔
      mask7 c0 = mask7 d0 ∧ mask7 c1 = mask7 d1 ∧ mask7 c2 = mask7 d2 := by
  constructor
  · intro h
    have hword : encode (.wireDC (mask7 c0) (mask7 c1) (mask7 c2)) =
        encode (.wireDC (mask7 d0) (mask7 d1) (mask7 d2)) := congrArg Code.packet h
    exact Instr.wireDC.inj (encode_injective hword)
  · rintro ⟨h0, h1, h2⟩
    simp only [encodeDotCorrection, h0, h1, h2]

theorem encodeIntensity_eq_iff {w v : Nat} (c0 c1 c2 : BitVec w) (d0 d1 d2 : BitVec v) :
    encodeIntensity c0 c1 c2 = encodeIntensity d0 d1 d2 ↔
      mask10 c0 = mask10 d0 ∧ mask10 c1 = mask10 d1 ∧ mask10 c2 = mask10 d2 := by
  constructor
  · intro h
    have hword : encode (.wirePWM (mask10 c0) (mask10 c1) (mask10 c2)) =
        encode (.wirePWM (mask10 d0) (mask10 d1) (mask10 d2)) := congrArg Code.packet h
    exact Instr.wirePWM.inj (encode_injective hword)
  · rintro ⟨h0, h1, h2⟩
    simp only [encodeIntensity, h0, h1, h2]

/-- No dot-correction packet is an intensity packet: their addresses differ (R134). -/
theorem encodeDotCorrection_ne_encodeIntensity {w v : Nat} (c0 c1 c2 : BitVec w) (d0 d1 d2 : BitVec v) :
    encodeDotCorrection c0 c1 c2 ≠ encodeIntensity d0 d1 d2 := fun h =>
  not_wirePWM_of_wireDC (encodeDotCorrection_constantBits c0 c1 c2) (h ▸ encodeIntensity_constantBits d0 d1 d2)

/-- Every word up to `0x3FFFFFFF` is the intensity packet of exactly one triple of 10-bit values (R131). -/
theorem existsUnique_encodeIntensity {p : Packet} (h : p.toNat ≤ 0x3FFFFFFF) :
    ∃! c : BitVec 10 × BitVec 10 × BitVec 10, encodeIntensity c.1 c.2.1 c.2.2 = p := by
  have hp := encodeIntensity_of_fields (address_zero_of_le h)
  refine ⟨(p.extractLsb' 0 10, p.extractLsb' 10 10, p.extractLsb' 20 10), hp, ?_⟩
  rintro ⟨c0, c1, c2⟩ hc
  obtain ⟨h0, h1, h2⟩ := (encodeIntensity_eq_iff _ _ _ _ _ _).1 (hc.trans hp.symm)
  simpa [mask10] using And.intro h0 (And.intro h1 h2)

/-- Settles O9: the concatenation is the definition, the number and the fold were shown for the layout, and the range
follows from the constant bits. -/
theorem encodeDotCorrectionRule : Obligations.EncodeDotCorrectionRule := by
  refine ⟨fun w c0 c1 c2 => ?_, by decide, by decide, by decide, by decide, by decide, by decide⟩
  have hbits := encodeDotCorrection_constantBits c0 c1 c2
  obtain ⟨hlo, hhi⟩ := range_of_and_eq hbits
  exact ⟨rfl, encodeDotCorrection_number c0 c1 c2, (pack_dcFields c0 c1 c2).symm, hlo, hhi, hbits⟩

/-- Settles O10: as for O9, and every word of the range is rebuilt from its fields, which alone it can come from. -/
theorem encodeIntensityRule : Obligations.EncodeIntensityRule := by
  refine ⟨fun c0 c1 c2 => ?_, fun _ => existsUnique_encodeIntensity, by decide, by decide, by decide, by decide,
    by decide, by decide⟩
  obtain ⟨-, hhi⟩ := range_of_and_eq (encodeIntensity_constantBits c0 c1 c2)
  exact ⟨rfl, encodeIntensity_number c0 c1 c2, (pack_pwmFields c0 c1 c2).symm, hhi⟩

/-- Settles O11: a rebuilt word has the encoder's constant bits, and those are all that rebuilding needs. -/
theorem packetsDetermineMaskedValues : Obligations.PacketsDetermineMaskedValues :=
  ⟨fun _ => ⟨fun h => h ▸ encodeDotCorrection_constantBits _ _ _, encodeDotCorrection_of_fields⟩,
    fun _ => encodeIntensity_of_fields,
    fun _ c0 c1 c2 d0 d1 d2 =>
      ⟨encodeDotCorrection_eq_iff c0 c1 c2 d0 d1 d2, encodeIntensity_eq_iff c0 c1 c2 d0 d1 d2⟩,
    fun _ _ => encodeDotCorrection_ne_encodeIntensity⟩

/-! ### A packet by itself -/

/-- The last bit of a dot-correction packet is bit 0 of channel 0 (R81, R158). -/
theorem encodeDotCorrection_bit_zero {w : Nat} (c0 c1 c2 : BitVec w) :
    (encodeDotCorrection c0 c1 c2).getLsbD 0 = c0.getLsbD 0 := by
  rw [encodeDotCorrection, BitVec.getLsbD_append]
  simp [mask7]

theorem encodeIntensity_bit_zero {w : Nat} (c0 c1 c2 : BitVec w) :
    (encodeIntensity c0 c1 c2).getLsbD 0 = c0.getLsbD 0 := by
  rw [encodeIntensity, BitVec.getLsbD_append]
  simp [mask10]

/-- The lines after a packet is put into PKT and emitted (R68, R158). -/
theorem transmitPacket_lvl (p : Packet) (s : State) :
    (transmitPacket p s).lvl = { s.lvl with clk := false, dat := p.getLsbD 0 } := emitPacket_lvl p _

/-- An instruction that transmits its own word completes: PKT, the four bytes, the lines and the frame (R133, R152;
log 10). -/
theorem packet_goes_out {i : Instr} {p : Packet} {s : State} (hexec : exec i s = .next (transmitPacket p s))
    (hword : encode i = .packet p) :
    ∃ t, exec i s = .next t ∧ encode i = .packet t.pkt ∧ t.pkt = p ∧ t.trace = s.trace ++ packetEvents t.pkt ∧
      t.lvl = { s.lvl with clk := false, dat := p.getLsbD 0 } ∧
      t = { s with trace := t.trace, pkt := t.pkt, lvl := t.lvl, chain := t.chain, draws := t.draws } := by
  refine ⟨transmitPacket p s, hexec, ?_⟩
  rw [transmitPacket_pkt]
  exact ⟨hword, rfl, transmitPacket_trace p s, transmitPacket_lvl p s, transmitPacket_frame p s⟩

/-- Settles O21: past the gate either wire packet transmits its own word, whose last bit is channel 0's. -/
theorem wirePacketsGoOut : Obligations.WirePacketsGoOut := by
  constructor
  · intro s c0 c1 c2 hc
    rw [← encodeDotCorrection_bit_zero c0 c1 c2]
    exact packet_goes_out (whenConfigured_true hc) (encode_wireDC c0 c1 c2)
  · intro s c0 c1 c2 hc
    rw [← encodeIntensity_bit_zero c0 c1 c2]
    exact packet_goes_out (whenConfigured_true hc) (encode_wirePWM c0 c1 c2)

end Sys2Proof.Machine

/-! The statements of 42_chain_transmit.md: what a Send emits and leaves, what reaches the chain, and the walk of
micro-steps and bit steps that a Send is cut into. -/

namespace Sys2Proof.Machine

/-! ### The packets of a Send -/

/-- IC `n`'s dot-correction packet, by array index (R30, R150). -/
theorem packetAt_dcmem (s : State) {n : Nat} (hn : 1 ≤ n) :
    packetAt .dcmem s n =
      encodeDotCorrection (s.dcElem (3 * n - 3)) (s.dcElem (3 * n - 2)) (s.dcElem (3 * n - 1)) := by
  obtain ⟨h0, h1, h2⟩ := slot_eq hn
  rw [packetAt, h0, h1, h2]

/-- IC `n`'s intensity packet, by array index (R30, R151). -/
theorem packetAt_pwmmem (s : State) {n : Nat} (hn : 1 ≤ n) :
    packetAt .pwmmem s n =
      encodeIntensity (s.pwmElem (3 * n - 3)) (s.pwmElem (3 * n - 2)) (s.pwmElem (3 * n - 1)) := by
  obtain ⟨h0, h1, h2⟩ := slot_eq hn
  rw [packetAt, h0, h1, h2]

/-- The loop's packets in order: IC `n`'s first, IC 1's last (R56). -/
theorem packetsDown_eq_map (space : Space) (s : State) (n : Nat) :
    packetsDown space s n = (List.range' 1 n).reverse.map (packetAt space s) := by
  induction n with
  | zero => rfl
  | succ n ih => rw [packetsDown, ih, List.range'_1_concat, List.reverse_concat, List.map_cons, Nat.add_comm]

/-- The loop of a Send on a chain of at least one IC has a last packet. -/
theorem packetsDown_ne_nil (space : Space) (s : State) {n : Nat} (hn : 1 ≤ n) : packetsDown space s n ≠ [] :=
  List.ne_nil_of_length_pos (by rwa [packetsDown_length])

/-- The last packet of the loop is IC 1's (R56). -/
theorem packetsDown_getLast {space : Space} {s : State} {n : Nat} (h : packetsDown space s n ≠ []) :
    (packetsDown space s n).getLast h = packetAt space s 1 := by
  simp [packetsDown_eq_map, List.getLast_reverse]

/-! ### What a Send leaves -/

/-- PKT after a Send holds IC 1's packet (R158). -/
theorem sent_pkt {space : Space} {s : State} (hn : 1 ≤ s.count) : (sent space s).pkt = packetAt space s 1 := by
  have hne := packetsDown_ne_nil space s hn
  rw [sent, withSeq_pkt, latchPulse_pkt, transmitMany_pkt _ hne, packetsDown_getLast hne]

/-- The lines after a Send of at least one packet (R158). -/
theorem sent_lvl_of_pos {space : Space} {s : State} (hn : 1 ≤ s.count) :
    (sent space s).lvl =
      { clk := false, en := s.lvl.en, lat := !s.params.latchActive, dat := (packetAt space s 1).getLsbD 0 } := by
  have hne := packetsDown_ne_nil space s hn
  rw [sent_lvl, transmitMany_lvl _ hne, packetsDown_getLast hne]

/-- A Send never moves the enable line (R158). -/
theorem sent_lvl_en (space : Space) (s : State) : (sent space s).lvl.en = s.lvl.en := by
  rw [sent_lvl, (transmitMany_en_lat _ s).1]

/-- A Send of either kind past the gate, its packets given IC by IC: events in order, PKT, frame, short array (R150,
R151). -/
theorem exec_sendOf_rule {space : Space} {s : State} {packet : Nat → Packet} (hc : s.configured = true)
    (hp : ∀ n, 1 ≤ n → packetAt space s n = packet n) :
    (3 * s.count ≤ s.params.len space → ∃ t, exec (sendOf space) s = .next t ∧
      t.trace = s.trace ++ ((List.range' 1 s.count).reverse.flatMap fun n => packetEvents (packet n)) ++
        latchEvents s.params ∧
      (1 ≤ s.count → t.pkt = packet 1) ∧ t.seq.phase = .idle ∧ t.lvl.en = s.lvl.en ∧
      t = { s with trace := t.trace, pkt := t.pkt, seq := t.seq, lvl := t.lvl, chain := t.chain, draws := t.draws }) ∧
    (s.params.len space < 3 * s.count → exec (sendOf space) s =
      .fault (.arrayBounds space (max (s.params.len space) (3 * s.count - 3)) s.dcmem s.pwmmem)) := by
  constructor
  · intro hf
    have hpackets : packetsDown space s s.count = (List.range' 1 s.count).reverse.map packet := by
      rw [packetsDown_eq_map]
      exact List.map_congr_left fun n hn => hp n (List.mem_range'_1.1 (List.mem_reverse.1 hn)).1
    refine ⟨sent space s, exec_sendOf_of_fit hc hf, ?_, fun hn => (sent_pkt hn).trans (hp 1 le_rfl), rfl,
      sent_lvl_en space s, sent_frame space s⟩
    rw [sent_trace, sendEvents, hpackets, List.flatMap_map, List.append_assoc]
  · intro hshort
    rw [exec_sendOf, whenConfigured_true hc, finish_send_eq, if_neg (Nat.not_le.2 hshort)]

/-- Settles O19: the rule of a Send, with IC `n`'s packet read from DCMEM. -/
theorem sendDotCorrectionRule : Obligations.SendDotCorrectionRule := fun s =>
  ⟨rfl, fun hc => exec_sendOf_rule (space := .dcmem) hc fun _ => packetAt_dcmem s⟩

/-- Settles O20: the rule of a Send, with IC `n`'s packet read from PWMMEM. -/
theorem sendIntensityRule : Obligations.SendIntensityRule := fun s =>
  ⟨rfl, fun hc => exec_sendOf_rule (space := .pwmmem) hc fun _ => packetAt_pwmmem s⟩

/-- Settles O24: the last packet is IC 1's, and its last bit is bit 0 of element 0. -/
theorem sendLeavesLinesAtRest : Obligations.SendLeavesLinesAtRest := by
  intro space s t hn h
  obtain ⟨-, -, rfl⟩ := exec_sendOf_next h
  refine ⟨sent_pkt hn, ?_⟩
  rw [sent_lvl_of_pos hn]
  cases space with
  | dcmem => exact congrArg _ (encodeDotCorrection_bit_zero _ _ _)
  | pwmmem => exact congrArg _ (encodeIntensity_bit_zero _ _ _)

/-! ### The event count -/

/-- The four bytes of a packet, most significant first (R152). -/
def packetBytes (p : Packet) : List Byte := [packetByte p 3, packetByte p 2, packetByte p 1, packetByte p 0]

theorem packetEvents_eq_map (p : Packet) : packetEvents p = (packetBytes p).map .shiftOutByte := rfl

theorem packetBytes_flatMap_length (ps : List Packet) : (ps.flatMap packetBytes).length = 4 * ps.length := by
  simp [List.length_flatMap, packetBytes, Nat.mul_comm]

/-- Each bit is three line writes (R68). -/
theorem bytePins_length (b : Byte) (n : Nat) : (bytePins b n).length = 3 * n := by
  induction n with
  | zero => rfl
  | succ n ih => rw [bytePins, List.length_append, ih, Nat.mul_succ, Nat.add_comm]; rfl

/-- Each byte is 24 line writes (R68, R155). -/
theorem shiftOutBytes_pins_length (bs : List Byte) :
    ((bs.map Event.shiftOutByte).flatMap Event.pins).length = 24 * bs.length := by
  simp [List.flatMap_map, List.length_flatMap, Event.pins, bytePins_length, Nat.mul_comm]

/-- The events of a Send are `4N` byte transfers and the latch pulse (R155). -/
theorem sendEvents_eq_bytes (space : Space) (s : State) :
    sendEvents space s =
      ((packetsDown space s s.count).flatMap packetBytes).map .shiftOutByte ++ latchEvents s.params := by
  rw [sendEvents, List.map_flatMap]
  rfl

/-- Settles O22: four bytes per packet, 24 line writes per byte, and the two line writes of the pulse. -/
theorem sendEventCount : Obligations.SendEventCount := by
  intro space s t h
  obtain ⟨-, -, rfl⟩ := exec_sendOf_next h
  have hbytes : ((packetsDown space s s.count).flatMap packetBytes).length = 4 * s.cfg.chainLength.toNat := by
    rw [packetBytes_flatMap_length, packetsDown_length]
    rfl
  refine ⟨_, hbytes, ?_, ?_, ?_⟩
  · rw [sent_trace, sendEvents_eq_bytes, List.append_assoc]
    rfl
  · rw [sent_trace, sendEvents_eq_bytes, List.length_append, List.length_append, List.length_map, hbytes]
    rfl
  · rw [sent_trace, List.drop_left, sendEvents_eq_bytes, List.flatMap_append, List.length_append,
      shiftOutBytes_pins_length, hbytes, ← Nat.mul_assoc]
    rfl

/-! ### What reaches the chain -/

/-- An IC that latches a dot-correction packet takes its elements' low 7 bits and clock mode `00` (R66, R81, R239). -/
theorem latchIC_encodeDotCorrection {w : Nat} {ic : ChainIC} (hr : ic.refused = none) (d k : Nat) (c0 c1 c2 : BitVec w) :
    latchIC d k { ic with sr := encodeDotCorrection c0 c1 c2 } =
      { ic with
        sr := encodeDotCorrection c0 c1 c2, dc0 := mask7 c0, dc1 := mask7 c1, dc2 := mask7 c2,
        clockMode := 0#2 } := by
  obtain ⟨-, -, h2, -, h1, -, hmode, h0⟩ :=
    wireDC_positions 0b01#2 0#3 0#3 0#1 0#2 (mask7 c0) (mask7 c1) (mask7 c2) (encodeDotCorrection c0 c1 c2) rfl
  rw [latchIC_dc (ic := { ic with sr := encodeDotCorrection c0 c1 c2 }) hr (encodeDotCorrection_constantBits c0 c1 c2)]
  simp only [h0, h1, h2, hmode]

/-- An IC that latches an intensity packet takes its elements' low 10 bits (R66, R82). -/
theorem latchIC_encodeIntensity {w : Nat} {ic : ChainIC} (hr : ic.refused = none) (d k : Nat) (c0 c1 c2 : BitVec w) :
    latchIC d k { ic with sr := encodeIntensity c0 c1 c2 } =
      { ic with sr := encodeIntensity c0 c1 c2, pwm0 := mask10 c0, pwm1 := mask10 c1, pwm2 := mask10 c2 } := by
  obtain ⟨-, h2, h1, h0⟩ :=
    wirePWM_positions 0b00#2 (mask10 c0) (mask10 c1) (mask10 c2) (encodeIntensity c0 c1 c2) rfl
  have hbits := encodeIntensity_constantBits c0 c1 c2
  rw [latchIC_pwm (ic := { ic with sr := encodeIntensity c0 c1 c2 }) hr
    (fun hdc => not_wirePWM_of_wireDC hdc hbits) hbits]
  simp only [h0, h1, h2]

/-- Settles O25: each IC latches its own packet, whose fields are its slots' low 7 bits. -/
theorem sendDotCorrectionReachesTheChain : Obligations.SendDotCorrectionReachesTheChain := by
  intro s t hl hr hclk hlat h
  obtain ⟨-, -, rfl⟩ := exec_sendOf_next (space := .dcmem) h
  refine ⟨sent_chain_length .dcmem hclk hlat, fun m ic ic' hm hm' => ?_⟩
  have hr := hr ic (List.mem_of_getElem? hm)
  rw [sent_chain_get .dcmem s hl hclk hlat m ic hm, packetAt_dcmem s (Nat.le_add_left 1 m),
    latchIC_encodeDotCorrection hr] at hm'
  cases hm'
  exact ⟨rfl, rfl, rfl, rfl, rfl, rfl, rfl, hr⟩

/-- Settles O26: each IC latches its own packet, whose fields are its slots' low 10 bits. -/
theorem sendIntensityReachesTheChain : Obligations.SendIntensityReachesTheChain := by
  intro s t hl hr hclk hlat h
  obtain ⟨-, -, rfl⟩ := exec_sendOf_next (space := .pwmmem) h
  refine ⟨sent_chain_length .pwmmem hclk hlat, fun m ic ic' hm hm' => ?_⟩
  have hr := hr ic (List.mem_of_getElem? hm)
  rw [sent_chain_get .pwmmem s hl hclk hlat m ic hm, packetAt_pwmmem s (Nat.le_add_left 1 m),
    latchIC_encodeIntensity hr] at hm'
  cases hm'
  exact ⟨rfl, rfl, rfl, rfl, rfl, rfl, rfl, hr⟩

/-! ### The bit steps of a byte -/

/-- A bit step within a byte drives the bit's line writes and goes to the next lower bit (R154). -/
theorem bitStep_of_pos {s : State} (h : 0 < s.seq.bit.toNat) :
    bitStep s = withSeq { s.seq with bit := s.seq.bit - 1 }
      (drivePins (bitPins ((packetByte s.pkt s.seq.byte.toNat).getLsbD s.seq.bit.toNat)) s) := if_pos h

/-- The bit step of bit 0 completes the byte's event as well (R154). -/
theorem bitStep_of_zero {s : State} (h : s.seq.bit.toNat = 0) :
    bitStep s = withSeq (afterByte { s.seq with bit := 7 })
      (record (.shiftOutByte (packetByte s.pkt s.seq.byte.toNat))
        (drivePins (bytePins (packetByte s.pkt s.seq.byte.toNat) 1) s)) := by
  rw [bitStep, if_neg (by omega), h]
  rfl

theorem bytePins_succ (b : Byte) (n : Nat) : bytePins b (n + 1) = bitPins (b.getLsbD n) ++ bytePins b n := rfl

theorem record_withSeq (e : Event) (q : Seq) (s : State) : record e (withSeq q s) = withSeq q (record e s) := rfl

/-- From bit `n` on, `n + 1` bit steps drive the rest of the byte's line writes and complete its event (R68, R154). -/
theorem bitStep_iterate {n : Nat} {s : State} (hbit : s.seq.bit.toNat = n) :
    bitStep^[n + 1] s =
      withSeq (afterByte { s.seq with bit := 7 })
        (record (.shiftOutByte (packetByte s.pkt s.seq.byte.toNat))
          (drivePins (bytePins (packetByte s.pkt s.seq.byte.toNat) (n + 1)) s)) := by
  induction n generalizing s with
  | zero => exact bitStep_of_zero hbit
  | succ n ih =>
    have hbit' : (s.seq.bit - 1).toNat = n := by bv_omega
    rw [Function.iterate_succ_apply, bitStep_of_pos (by omega), ih hbit', hbit, bytePins_succ _ (n + 1),
      drivePins_append, drivePins_withSeq]
    simp only [withSeq_seq, withSeq_pkt, drivePins_pkt, record_withSeq, withSeq_withSeq]

/-- Settles O30: eight bit steps drive the byte's line writes, which are its event's pin-level view. -/
theorem shiftMicroStepIsEightBitSteps : Obligations.ShiftMicroStepIsEightBitSteps := by
  intro s hphase hbit
  have hseq : { s.seq with bit := 7 } = s.seq := by rw [← hbit]
  have hbits : bitStep^[8] s = _ := bitStep_iterate (n := 7) (by rw [hbit]; rfl)
  rw [hbits, hseq, microStep, hphase]
  rfl

/-! ### The walk of a Send -/

/-- A micro-step that completes is followed by the rest of the walk. -/
theorem microSteps_succ {s t : State} (h : microStep s = .next t) (k : Nat) :
    microSteps (k + 1) s = microSteps k t := by
  rw [microSteps, h]

/-- A micro-step that faults ends the walk. -/
theorem microSteps_fault {s : State} {f : Fault} (h : microStep s = .fault f) {k : Nat} (hk : 1 ≤ k) :
    microSteps k s = .fault f := by
  obtain ⟨k, rfl⟩ := Nat.exists_eq_add_of_le' hk
  rw [microSteps, h]

/-- The LOAD micro-step of an IC whose slots fit (R154). -/
theorem microStep_load {q : Seq} {s : State} (hq : q.phase = .load) (hfit : slot q.ic.toNat 2 < s.params.len q.space) :
    microStep (withSeq q s) =
      .next (withSeq { q with phase := .shift, byte := 3, bit := 7 } (withPkt (packetAt q.space s q.ic.toNat) s)) := by
  have hload : loadPacket q.space (withSeq q s) q.ic.toNat = .ok (packetAt q.space s q.ic.toNat) :=
    (loadPacket_eq _ _ _).trans (if_pos hfit)
  simp only [microStep, withSeq_seq, hq, hload]
  rfl

/-- The LOAD micro-step of an IC whose slots do not fit (R150, R154). -/
theorem microStep_load_short {q : Seq} {s : State} (hq : q.phase = .load)
    (hshort : ¬ slot q.ic.toNat 2 < s.params.len q.space) :
    microStep (withSeq q s) =
      .fault (.arrayBounds q.space (max (s.params.len q.space) (slot q.ic.toNat 0)) s.dcmem s.pwmmem) := by
  have hload : loadPacket q.space (withSeq q s) q.ic.toNat = .error _ := (loadPacket_eq _ _ _).trans (if_neg hshort)
  simp only [microStep, withSeq_seq, hq, hload]
  rfl

/-- The SHIFT micro-step (R154). -/
theorem microStep_shift {q : Seq} (hq : q.phase = .shift) (s : State) :
    microStep (withSeq q s) =
      .next (withSeq (afterByte q) (shiftOutByte (packetByte s.pkt q.byte.toNat) s)) := by
  simp only [microStep, withSeq_seq, hq, shiftOutByte_eq, emit_withSeq, withSeq_withSeq, withSeq_pkt]

/-- The sequencer at byte `j` of IC `ic`'s packet (R154). -/
def shiftSeq (space : Space) (ic : BitVec 8) (j : BitVec 2) : Seq :=
  { phase := .shift, space := space, ic := ic, byte := j, bit := 7 }

/-- After a byte that is not the packet's last the sequencer goes to the next one (R154). -/
theorem afterByte_of_pos {space : Space} {ic : BitVec 8} {j : BitVec 2} (hj : 0 < j.toNat) :
    afterByte (shiftSeq space ic j) = shiftSeq space ic (j - 1) := if_pos hj

/-- The four SHIFT micro-steps of a packet emit it (R152, R154). -/
theorem microSteps_shift (k : Nat) (space : Space) (ic : BitVec 8) (s : State) :
    microSteps (k + 4) (withSeq (shiftSeq space ic 3) s) =
      microSteps k (withSeq (afterByte (shiftSeq space ic 0)) (emitPacket s.pkt s)) := by
  rw [microSteps_succ (microStep_shift rfl _), afterByte_of_pos (by decide),
    microSteps_succ (microStep_shift rfl _), afterByte_of_pos (by decide),
    microSteps_succ (microStep_shift rfl _), afterByte_of_pos (by decide),
    microSteps_succ (microStep_shift rfl _)]
  simp only [shiftOutByte_eq, emit_pkt]
  rfl

/-- The sequencer about to load IC `ic`'s packet (R154). -/
def loadSeq (space : Space) (ic : BitVec 8) : Seq := { phase := .load, space := space, ic := ic, byte := 0, bit := 7 }

/-- The sequencer once every packet is out (R154). -/
def latchSeq (space : Space) : Seq := { phase := .latchAssert, space := space, ic := 1, byte := 0, bit := 7 }

/-- After the last byte of an IC above 1 the sequencer goes to the next lower IC (R154). -/
theorem afterByte_of_one_lt {space : Space} {ic : BitVec 8} (hic : 1 < ic.toNat) :
    afterByte (shiftSeq space ic 0) = loadSeq space (ic - 1) := if_pos hic

/-- After the last byte of IC 1 the sequencer goes to the latch (R154). -/
theorem afterByte_one (space : Space) : afterByte (shiftSeq space 1 0) = latchSeq space := rfl

/-- The five micro-steps of an IC whose slots fit load its packet and transmit it (R154). -/
theorem microSteps_packet (k : Nat) {q : Seq} {s : State} (hq : q.phase = .load) (hic : 1 ≤ q.ic.toNat)
    (hf : 3 * q.ic.toNat ≤ s.params.len q.space) :
    microSteps (k + 5) (withSeq q s) =
      microSteps k
        (withSeq (afterByte (shiftSeq q.space q.ic 0)) (transmitPacket (packetAt q.space s q.ic.toNat) s)) := by
  rw [microSteps_succ (microStep_load hq ((slot_lt_iff hic).2 hf))]
  exact microSteps_shift k q.space q.ic _

/-- The `5n` micro-steps of ICs `n` down to 1 transmit their packets (R154). -/
theorem microSteps_packets {n : Nat} (k : Nat) {q : Seq} {s : State} (hq : q.phase = .load)
    (hic : q.ic.toNat = n + 1) (hf : 3 * (n + 1) ≤ s.params.len q.space) :
    microSteps (k + 5 * (n + 1)) (withSeq q s) =
      microSteps k (withSeq (latchSeq q.space) (transmitMany (packetsDown q.space s (n + 1)) s)) := by
  induction n generalizing q s with
  | zero =>
    have hone : q.ic = 1 := BitVec.eq_of_toNat_eq hic
    rw [microSteps_packet k hq (by omega) (by omega), hic, hone, afterByte_one]
    rfl
  | succ n ih =>
    have hic' : (q.ic - 1).toNat = n + 1 := by bv_omega
    have hf' : 3 * (n + 1) ≤ (transmitPacket (packetAt q.space s (n + 2)) s).params.len q.space := by
      rw [transmitPacket_params]
      omega
    have hpackets : packetsDown q.space s (n + 2) =
        packetAt q.space s (n + 2) :: packetsDown q.space (transmitPacket (packetAt q.space s (n + 2)) s) (n + 1) :=
      congrArg _ (packetsDown_congr (by simp) (by simp) (by simp) q.space (n + 1))
    rw [Nat.mul_succ, ← Nat.add_assoc, microSteps_packet _ hq (by omega) (by omega), afterByte_of_one_lt (by omega),
      hic, hpackets, transmitMany_cons]
    exact ih rfl hic' hf'

/-- The four latch micro-steps are the latch pulse: each phase makes one of its link requests (R153, R154). -/
theorem microSteps_latch {q : Seq} (hq : q.phase = .latchAssert) (s : State) :
    microSteps 4 (withSeq q s) = .next (withSeq { q with phase := .idle } (latchPulse s)) := by
  simp [microSteps, microStep, hq, setPhase, emit_withSeq, latchPulse]

/-- Settles O29: the packets' micro-steps and the latch's when the array fits, otherwise the first LOAD faults. -/
theorem sendIsItsMicroSteps : Obligations.SendIsItsMicroSteps := by
  intro space s hc hn
  obtain ⟨n, hcount⟩ : ∃ n, s.cfg.chainLength.toNat = n + 1 := Nat.exists_eq_add_of_le' hn
  rw [exec_sendOf, whenConfigured_true hc, finish_send_eq, sent, State.count, hcount, Nat.add_comm, beginSend]
  split_ifs with hf
  · rw [microSteps_packets 4 rfl hcount hf, microSteps_latch rfl]
    rfl
  · have hic : slot s.cfg.chainLength.toNat 0 = 3 * (n + 1) - 3 := by rw [(slot_eq hn).1, hcount]
    rw [← hic]
    exact microSteps_fault (microStep_load_short rfl fun hfit => hf (hcount ▸ (slot_lt_iff hn).1 hfit)) (by omega)

end Sys2Proof.Machine

/-! The statements of 43_enable_config.md: what SetEnabled does, and that it and the first Configure alone move the
enable state. -/

namespace Sys2Proof.Machine

/-! ### SetEnabled -/

/-- Past the gate SetEnabled completes (R180). -/
theorem exec_setEnabled {s : State} (hc : s.configured = true) (enabled : Bool) :
    exec (.setEnabled enabled) s = .next (enabledTo enabled s) := whenConfigured_true hc

/-- After SetEnabled every IC shows its registers, or none does (R66, R180). -/
theorem enabledTo_visible (enabled : Bool) (s : State) :
    (enabledTo enabled s).visible = s.chain.map fun ic => if enabled then some ic else none := by
  have hlevel : enableLevel s.params enabled = s.params.enableActive ↔ enabled = true :=
    (enableLevel_eq_active_iff s.params enabled).trans (by cases enabled <;> decide)
  rw [enabledTo_eq]
  simp only [State.visible, hlevel]

/-- Settles O33: the line write moves the enable line, ENSTATE and the trace only, and the level it drives is the
active one exactly when enabling. -/
theorem setEnabledRule : Obligations.SetEnabledRule := fun s enabled =>
  ⟨rfl, fun hc => ⟨enabledTo enabled s, exec_setEnabled hc enabled, enabledTo_eq enabled s,
    enabledTo_visible enabled s⟩⟩

/-! ### Who moves the enable state -/

/-- From `s` to `t` nothing happens to the output enable: ENSTATE and the enable line stay, and the new events hold
no write of that line (R183). -/
def EnableUntouched (s t : State) : Prop :=
  t.enState = s.enState ∧ t.lvl.en = s.lvl.en ∧ ∃ es, t.trace = s.trace ++ es ∧ ∀ l, Event.writeLine .en l ∉ es

/-- A change that emits nothing and moves neither ENSTATE nor a line. -/
theorem enableUntouched_of_eq {s t : State} (hstate : t.enState = s.enState) (hlvl : t.lvl = s.lvl)
    (htrace : t.trace = s.trace) : EnableUntouched s t :=
  ⟨hstate, by rw [hlvl], [], by rw [htrace, List.append_nil], fun _ => List.not_mem_nil⟩

/-- A packet's events are byte transfers (R152). -/
theorem writeLine_notMem_packetEvents (line : Line) (l : Level) (p : Packet) :
    Event.writeLine line l ∉ packetEvents p := by
  simp [packetEvents]

/-- A Send writes no line but the latch line (R150, R153). -/
theorem writeLine_en_notMem_sendEvents (l : Level) (space : Space) (s : State) :
    Event.writeLine .en l ∉ sendEvents space s := by
  simp [sendEvents, latchEvents, writeLine_notMem_packetEvents]

theorem sent_enableUntouched (space : Space) (s : State) : EnableUntouched s (sent space s) :=
  ⟨by rw [sent_frame], sent_lvl_en space s, sendEvents space s, sent_trace space s,
    fun l => writeLine_en_notMem_sendEvents l space s⟩

theorem transmitPacket_enableUntouched (p : Packet) (s : State) : EnableUntouched s (transmitPacket p s) :=
  ⟨transmitPacket_enState p s, by rw [transmitPacket_lvl], packetEvents p, transmitPacket_trace p s,
    fun l => writeLine_notMem_packetEvents .en l p⟩

/-- Every instruction but SetEnabled and the first Configure leaves the output enable alone (R183, D13). -/
theorem exec_enableUntouched {s t : State} {i : Instr} (h : exec i s = .next t)
    (hset : ∀ enabled, i ≠ .setEnabled enabled)
    (hconf : ∀ ics clk en lat dat, i = .configure ics clk en lat dat → s.configured = true) :
    EnableUntouched s t := by
  cases exec_cases h with
  | same => exact enableUntouched_of_eq rfl rfl rfl
  | setDC => exact enableUntouched_of_eq rfl rfl rfl
  | setPWM => exact enableUntouched_of_eq rfl rfl rfl
  | send space => exact sent_enableUntouched space s
  | enable enabled => exact absurd rfl (hset enabled)
  | configure ics clk en lat dat hc => exact absurd ((hconf ics clk en lat dat rfl).symm.trans hc) (by decide)
  | packet _ p => exact transmitPacket_enableUntouched p s

/-- A SetEnabled that completes has set ENSTATE to its operand (R180). -/
theorem enState_of_exec_setEnabled {s t : State} {enabled : Bool} (h : exec (.setEnabled enabled) s = .next t) :
    t.enState = enableState enabled := by
  obtain ⟨-, h⟩ := whenConfigured_next h
  cases h
  rfl

/-- The first Configure that completes has set ENSTATE to Disabled (R181). -/
theorem enState_of_exec_configure_first {s t : State} {ics clk en lat dat : BitVec 8} (hc : s.configured = false)
    (h : exec (.configure ics clk en lat dat) s = .next t) : t.enState = .disabled := by
  by_cases hd : idsDistinct clk en lat dat = true
  · rw [exec_configure_first hc hd] at h
    cases h
    exact driveIdle_enState _
  · rw [exec_configure_collision hd] at h
    cases h

/-- Settles O34: SetEnabled and the first Configure set ENSTATE, and by the ways an instruction can answer a next
state nothing else touches the output enable. -/
theorem onlySetEnabledEnables : Obligations.OnlySetEnabledEnables := by
  intro s t i h
  cases i with
  | setEnabled enabled => exact enState_of_exec_setEnabled h
  | configure => exact ⟨fun hc => enState_of_exec_configure_first hc h,
      fun hc => exec_enableUntouched h nofun fun _ _ _ _ _ _ => hc⟩
  | _ => exact exec_enableUntouched h nofun nofun

end Sys2Proof.Machine

/-! The statements of 60_exceptions.md: what a second Configure does, which instruction is refused and when, in what
order an instruction's conditions are tested, and that nothing stops one that meets them all. -/

namespace Sys2Proof.Machine

/-! ### A second Configure -/

/-- On a configured block Configure with distinct identifiers is a no-op (R181, D13). -/
theorem exec_configure_again {s : State} {ics clk en lat dat : BitVec 8} (hs : s.configured = true)
    (hd : idsDistinct clk en lat dat = true) : exec (.configure ics clk en lat dat) s = .next s :=
  (if_pos hd).trans (if_pos hs)

/-- Settles O36: the identifiers are tested first, then CONFIGURED. -/
theorem configureIsWriteOnce : Obligations.ConfigureIsWriteOnce := fun s _ _ _ _ _ =>
  ⟨fun hd hs => exec_configure_again hs hd, fun hd => exec_configure_collision (ne_true_of_eq_false hd) s⟩

/-! ### The order of the conditions -/

/-- A Send is refused before Configure (R23). -/
theorem exec_sendOf_unconfigured {s : State} (space : Space) (hs : s.configured = false) :
    exec (sendOf space) s = .refused (.unconfigured (sendOf space)) := by
  rw [exec_sendOf, whenConfigured_false hs]

/-- A Send of a short array faults in its first iteration, at one of the three reads of IC `N` (R150, R204). -/
theorem exec_sendOf_short {space : Space} {s : State} (hc : s.configured = true)
    (hshort : s.params.len space < 3 * s.count) :
    ∃ k < 3, exec (sendOf space) s = .fault (.arrayBounds space (3 * s.count - 3 + k) s.dcmem s.pwmmem) := by
  refine ⟨max (s.params.len space) (3 * s.count - 3) - (3 * s.count - 3), by omega, ?_⟩
  rw [Nat.add_sub_cancel' (le_max_right _ _)]
  exact (exec_sendOf_rule hc fun _ _ => rfl).2 hshort

/-- A broadcast over a short DCMEM faults at its first missing index (R111, R204). -/
theorem exec_setDotCorrectionForAllICs_short {s : State} (hc : s.configured = true)
    (hshort : s.params.dcLen < 3 * s.count) (v0 v1 v2 : BitVec 16) :
    ∃ d, exec (.setDotCorrectionForAllICs v0 v1 v2) s = .fault (.arrayBounds .dcmem s.params.dcLen d s.pwmmem) := by
  obtain ⟨d, hexec, -⟩ := (exec_setDotCorrectionForAllICs_fills hc v0 v1 v2).short hshort
  exact ⟨d, by rw [hexec, Nat.max_zero]⟩

/-- A broadcast over a short PWMMEM faults at its first missing index (R113, R204). -/
theorem exec_setIntensityForAllICs_short {s : State} (hc : s.configured = true)
    (hshort : s.params.pwmLen < 3 * s.count) (v0 v1 v2 : BitVec 16) :
    ∃ d, exec (.setIntensityForAllICs v0 v1 v2) s = .fault (.arrayBounds .pwmmem s.params.pwmLen s.dcmem d) := by
  obtain ⟨d, hexec, -⟩ := (exec_setIntensityForAllICs_fills hc v0 v1 v2).short hshort
  exact ⟨d, by rw [hexec, Nat.max_zero]⟩

/-- Settles O39: the collision and the gate come first, a request out of range is dropped without an access, and a
short array stops a broadcast at its end and a Send in its first iteration. -/
theorem priorityOfConditions : Obligations.PriorityOfConditions := by
  intro s
  refine ⟨fun ics clk en lat dat => (configureIsWriteOnce s ics clk en lat dat).2, ?_, fun hc => ⟨?_, ?_, ?_⟩⟩
  · rintro hs space i (hset | rfl)
    · exact exec_setter_unconfigured hset hs
    · exact exec_sendOf_unconfigured space hs
  · intro ic v0 v1 v2 hout
    have hr : ¬ inRange ic s.cfg.chainLength = true := not_inRange (hout.imp_left Nat.lt_one_iff.2)
    exact ⟨exec_setDotCorrectionForIC_dropped hc v0 v1 v2 hr, exec_setIntensityForIC_dropped hc v0 v1 v2 hr⟩
  · exact fun hshort => ⟨exec_setDotCorrectionForAllICs_short hc hshort, exec_sendOf_short (space := .dcmem) hc hshort⟩
  · exact fun hshort => ⟨exec_setIntensityForAllICs_short hc hshort, exec_sendOf_short (space := .pwmmem) hc hshort⟩

/-! ### Refusals, and what completes -/

/-- The two ways an instruction can be refused (R202). -/
inductive RefusalCase (s : State) : Instr → Refusal → Prop where
  /-- The gate: the block is not configured. -/
  | unconfigured (i : Instr) (hs : s.configured = false) : RefusalCase s i (.unconfigured i)
  /-- Configure with two equal identifiers. -/
  | collision (ics clk en lat dat : BitVec 8) (hd : idsDistinct clk en lat dat = false) :
      RefusalCase s (.configure ics clk en lat dat) (.lineIdCollision clk en lat dat)

/-- An instruction that refuses nothing past its gate is refused by the gate alone (R23). -/
theorem whenConfigured_refused {s : State} {i : Instr} {r : Refusal} {k : Host.Outcome State Fault Refusal}
    (h : whenConfigured i s k = .refused r) (hk : k ≠ .refused r) : RefusalCase s i r := by
  unfold whenConfigured at h
  split at h
  · exact absurd h hk
  · rename_i hs
    cases h
    exact .unconfigured i (by simpa using hs)

theorem finish_ne_refused (e : Except Fault State) (r : Refusal) : finish e ≠ .refused r := by
  cases e <;> nofun

theorem setDCMem_ne_refused (s : State) (e : Except (WriteStop 8) (Mem 8)) (r : Refusal) :
    setDCMem s e ≠ .refused r := by
  cases e <;> nofun

theorem setPWMMem_ne_refused (s : State) (e : Except (WriteStop 16) (Mem 16)) (r : Refusal) :
    setPWMMem s e ≠ .refused r := by
  cases e <;> nofun

/-- Everything an instruction can do when it is refused. -/
theorem exec_refused_cases {s : State} {i : Instr} {r : Refusal} (h : exec i s = .refused r) : RefusalCase s i r := by
  cases i with
  | nop => cases h
  | configure ics clk en lat dat =>
    simp only [exec, execConfigure] at h
    split at h
    · split at h <;> cases h
    · rename_i hd
      cases h
      exact .collision ics clk en lat dat (by simpa using hd)
  | setDotCorrectionForIC ic v0 v1 v2 =>
    refine whenConfigured_refused h ?_
    split
    · exact setDCMem_ne_refused s _ r
    · nofun
  | setDotCorrectionForAllICs v0 v1 v2 => exact whenConfigured_refused h (setDCMem_ne_refused s _ r)
  | setIntensityForIC ic v0 v1 v2 =>
    refine whenConfigured_refused h ?_
    split
    · exact setPWMMem_ne_refused s _ r
    · nofun
  | setIntensityForAllICs v0 v1 v2 => exact whenConfigured_refused h (setPWMMem_ne_refused s _ r)
  | sendDotCorrection => exact whenConfigured_refused h (finish_ne_refused _ r)
  | sendIntensity => exact whenConfigured_refused h (finish_ne_refused _ r)
  | setEnabled enabled => exact whenConfigured_refused h nofun
  | wireDC c0 c1 c2 => exact whenConfigured_refused h nofun
  | wirePWM c0 c1 c2 => exact whenConfigured_refused h nofun

/-- On a configured block no well-formed instruction is refused (R23, R202). -/
theorem exec_ne_refused {s : State} {i : Instr} (hc : s.configured = true) (hw : i.wellFormed = true) (r : Refusal) :
    exec i s ≠ .refused r := by
  intro h
  cases exec_refused_cases h with
  | unconfigured _ hs => exact absurd (hc.symm.trans hs) (by decide)
  | collision _ _ _ _ _ hd => exact absurd (hw.symm.trans hd) (by decide)

/-- Arrays as long as the caller owes hold every index an instruction uses (R52, R237). -/
theorem State.ArraysFit.len {s : State} (h : s.ArraysFit) (space : Space) : 3 * s.count ≤ s.params.len space := by
  cases space with
  | dcmem => exact h.1
  | pwmmem => exact h.2

/-- With such arrays no instruction faults (R52, R202). -/
theorem exec_ne_fault {s : State} (hfit : s.ArraysFit) (i : Instr) (f : Fault) : exec i s ≠ .fault f := by
  intro h
  obtain ⟨space, j, -, -, -, hj, hn, -, -⟩ := onlyShortArraysFault s i f h
  exact absurd (hn.trans_le (hfit.len space)) (Nat.not_lt.2 hj)

/-- Settles O50: of the three outcomes, the two that stop are excluded. -/
theorem everyInstructionCompletes : Obligations.EveryInstructionCompletes := by
  intro s i hc hfit hw
  cases h : exec i s with
  | next t => exact ⟨t, rfl⟩
  | fault f => exact absurd h (exec_ne_fault hfit i f)
  | refused r => exact absurd h (exec_ne_refused hc hw r)

end Sys2Proof.Machine

/-! The statements of 70_reset_and_hazards.md: what a reset of the controller and a power cycle of the chain change. -/

namespace Sys2Proof.Machine

/-! ### The two resets -/

/-- Every IC of the chain comes back as some IC (R231). -/
@[simp] theorem powerOnChain_length (draw m : Nat) (chain : List ChainIC) :
    (powerOnChain draw m chain).length = chain.length := by
  induction chain generalizing m with
  | nil => rfl
  | cons ic rest ih => simp [powerOnChain, ih]

theorem resetChain_chain (s : State) : (resetChain s).chain = powerOnChain s.draws 1 s.chain := rfl

/-- Between Sends a reset at the head of the port resets the controller (R230). -/
theorem step_of_reset {s : State} {rest : List Input} (hp : s.seq.phase = .idle) (hport : s.port = .reset :: rest) :
    step s = .next (resetController { s with port := rest }) :=
  step_of_port hp hport

/-- Between Sends a power cycle at the head of the port resets the chain (R231). -/
theorem step_of_resetChain {s : State} {rest : List Input} (hp : s.seq.phase = .idle)
    (hport : s.port = .resetChain :: rest) : step s = .next (resetChain { s with port := rest }) :=
  step_of_port hp hport

/-- Settles O48: each reset names the registers it writes, and a power cycle goes through the chain IC by IC. -/
theorem resetsAreIndependent : Obligations.ResetsAreIndependent := by
  refine ⟨fun s rest hp hport => ⟨_, step_of_reset hp hport, ?_⟩,
    fun s rest hp hport => ⟨_, step_of_resetChain hp hport, ?_, ?_⟩⟩
  · exact ⟨rfl, rfl, rfl, rfl, rfl, rfl, rfl⟩
  · rfl
  · rw [resetChain_chain, powerOnChain_length]

end Sys2Proof.Machine

/-! The remaining statements of 43_enable_config.md and 40_array_setters.md: the first Configure, Nop and the reserved
opcodes, the gate before Configure, and that a setter run a second time changes nothing. -/

namespace Sys2Proof.Machine

/-! ### The first Configure -/

/-- Settles O35: Configure constructs the block, and its four line writes make no edge the chain acts on. -/
theorem configureConstructs : Obligations.ConfigureConstructs := by
  intro s ics clk en lat dat hs hd
  rw [exec_configure_first hs hd, construct, driveIdle_eq]
  rfl

/-! ### Nop, the reserved opcodes and the gate -/

/-- The opcode is the top four bits of a command word (R88). -/
theorem opcodeField_toNat (w : CommandWord) : (opcodeField w).toNat = w.toNat / 2 ^ 60 := by
  rw [opcodeField, BitVec.extractLsb'_toNat, Nat.shiftRight_eq_div_pow]
  omega

/-- Settles O37: Nop is the identity, and a word with a reserved opcode is taken, decoded and ignored. -/
theorem nopAndReservedOpcodesDoNothing : Obligations.NopAndReservedOpcodesDoNothing := by
  refine ⟨fun s => rfl, fun s w rest hidle hport hop => ?_⟩
  rw [step_of_port hidle hport, accept, decode_command_reserved (hop.trans_eq (opcodeField_toNat w).symm)]
  rfl

/-- Settles O38: by the gate every other instruction passes. -/
theorem unconfiguredBlockRefuses : Obligations.UnconfiguredBlockRefuses := fun _ _ => exec_unconfigured

/-! ### Array writes made a second time -/

/-- After a run was filled, filling it again with the same values changes nothing. -/
theorem Filled.again {α : Type} {lo hi : Nat} {e0 e1 e2 : α} {f g : Nat → α} (h : Filled lo hi e0 e1 e2 f g) :
    Filled lo hi e0 e1 e2 g g := by
  intro i
  split
  · exact (h i).trans (if_pos ‹_›)
  · rfl

section
variable {w len n : Nat} {e0 e1 e2 : BitVec w} {m m' : Mem w}

/-- Writes that completed fit the array, which now holds their values. -/
theorem Writes.filled {lo hi : Nat} (h : Writes len lo hi e0 e1 e2 m (.ok m')) :
    hi ≤ len ∧ Filled lo hi (some e0) (some e1) (some e2) m'.get? m'.get? := by
  rcases Nat.lt_or_ge len hi with hlen | hlen
  · obtain ⟨d, hd, -⟩ := h.short hlen
    cases hd
  · obtain ⟨_, hm', hfill⟩ := h.fit hlen
    cases hm'
    exact ⟨hlen, hfill.again⟩

/-- The writes of one IC keep the canonical form. -/
theorem writeIC_wf (h : writeIC len n e0 e1 e2 m = .ok m') (hm : m.wf) : m'.wf := by
  rw [writeIC_eq] at h
  split at h
  · cases h
    exact Mem.set_wf (Mem.set_wf (Mem.set_wf hm))
  · cases h

/-- A broadcast that completed made the writes of its last IC on the array the others left. -/
theorem writeICs_succ_ok (h : writeICs len e0 e1 e2 (n + 1) m = .ok m') :
    ∃ m₁, writeICs len e0 e1 e2 n m = .ok m₁ ∧ writeIC len (n + 1) e0 e1 e2 m₁ = .ok m' := by
  rw [writeICs] at h
  cases hn : writeICs len e0 e1 e2 n m with
  | ok m₁ => rw [hn] at h; exact ⟨m₁, rfl, h⟩
  | error e => rw [hn] at h; cases h

/-- The writes of a broadcast keep the canonical form. -/
theorem writeICs_wf (h : writeICs len e0 e1 e2 n m = .ok m') (hm : m.wf) : m'.wf := by
  induction n generalizing m' with
  | zero => cases h; exact hm
  | succ n ih =>
    obtain ⟨m₁, hn, hlast⟩ := writeICs_succ_ok h
    exact writeIC_wf hlast (ih hn)

/-- Writing to one IC's slots what they hold changes nothing. -/
theorem writeIC_of_filled {lo hi : Nat} (hm : m.wf) (h : Filled lo hi (some e0) (some e1) (some e2) m.get? m.get?)
    (hn : 1 ≤ n) (hlo : lo ≤ 3 * n - 3) (hhi : 3 * n ≤ hi) (hlen : 3 * n ≤ len) :
    writeIC len n e0 e1 e2 m = .ok m := by
  obtain ⟨h0, h1, h2⟩ := h.slots hn hlo hhi
  obtain ⟨hs0, hs1, hs2⟩ := slot_eq hn
  rw [writeIC_eq, if_pos ((slot_lt_iff hn).2 hlen), hs0, hs1, hs2, Mem.set_of_get? hm h0, Mem.set_of_get? hm h1,
    Mem.set_of_get? hm h2]

/-- Writing to the slots of ICs 1 to `n` what they hold changes nothing. -/
theorem writeICs_of_filled {hi : Nat} (hm : m.wf) (h : Filled 0 hi (some e0) (some e1) (some e2) m.get? m.get?)
    (hhi : 3 * n ≤ hi) (hlen : 3 * n ≤ len) : writeICs len e0 e1 e2 n m = .ok m := by
  induction n with
  | zero => rfl
  | succ n ih =>
    rw [writeICs, ih (by omega) (by omega)]
    exact writeIC_of_filled hm h (by omega) (Nat.zero_le _) hhi hlen

/-- The writes of one IC, made a second time, change nothing (R110). -/
theorem writeIC_again (hn : 1 ≤ n) (hm : m.wf) (h : writeIC len n e0 e1 e2 m = .ok m') :
    writeIC len n e0 e1 e2 m' = .ok m' := by
  obtain ⟨hlen, hfill⟩ := (h ▸ writeIC_writes hn len e0 e1 e2 m).filled
  exact writeIC_of_filled (writeIC_wf h hm) hfill hn le_rfl le_rfl hlen

/-- The writes of a broadcast, made a second time, change nothing (R111). -/
theorem writeICs_again (hm : m.wf) (h : writeICs len e0 e1 e2 n m = .ok m') :
    writeICs len e0 e1 e2 n m' = .ok m' := by
  obtain ⟨hlen, hfill⟩ := (h ▸ writeICs_writes len n e0 e1 e2 m).filled
  exact writeICs_of_filled (writeICs_wf h hm) hfill le_rfl hlen

end

/-! ### A setter run a second time -/

/-- Settles O16: a request out of range has left the state as it was, and any other setter finds in the array the
values it writes. -/
theorem settersAreIdempotent : Obligations.SettersAreIdempotent := by
  intro s t space i hset hdc hpwm hexec
  cases i with
  | setDotCorrectionForIC ic v0 v1 v2 =>
    obtain ⟨hc, h⟩ := whenConfigured_next hexec
    split at h
    · rename_i hr
      obtain ⟨m, hm, rfl⟩ := setDCMem_next h
      exact (whenConfigured_true hc).trans ((if_pos hr).trans
        (congrArg (setDCMem _) (writeIC_again ((inRange_iff _ _).1 hr).1 hdc hm)))
    · cases h; exact hexec
  | setDotCorrectionForAllICs v0 v1 v2 =>
    obtain ⟨hc, h⟩ := whenConfigured_next hexec
    obtain ⟨m, hm, rfl⟩ := setDCMem_next h
    exact (whenConfigured_true hc).trans (congrArg (setDCMem _) (writeICs_again hdc hm))
  | setIntensityForIC ic v0 v1 v2 =>
    obtain ⟨hc, h⟩ := whenConfigured_next hexec
    split at h
    · rename_i hr
      obtain ⟨m, hm, rfl⟩ := setPWMMem_next h
      exact (whenConfigured_true hc).trans ((if_pos hr).trans
        (congrArg (setPWMMem _) (writeIC_again ((inRange_iff _ _).1 hr).1 hpwm hm)))
    · cases h; exact hexec
  | setIntensityForAllICs v0 v1 v2 =>
    obtain ⟨hc, h⟩ := whenConfigured_next hexec
    obtain ⟨m, hm, rfl⟩ := setPWMMem_next h
    exact (whenConfigured_true hc).trans (congrArg (setPWMMem _) (writeICs_again hpwm hm))
  | _ => cases hset

end Sys2Proof.Machine
